-- ==== Sys2Proof/Word.lean ====
section
/-! DEFINITION. The two data widths of the block: the 8-bit memory cell and the 16-bit word
(registers, opcode words, displacement words, addresses), 00_scope.md R5 and R7. Sums and
differences of words wrap modulo 65536 (10_state.md R29); BitVec's `+` and `-` are that arithmetic. -/

namespace Sys2Proof

/-- A memory cell, an unsigned 8-bit value (R50). -/
abbrev Byte := BitVec 8

/-- A 16-bit value: a register, an address, a word of memory (R5, R7, R21). -/
abbrev Word := BitVec 16

end Sys2Proof
end

