-- ==== Sys2Proof/Machine/Bits.lean ====
section
/-! DEFINITION. Byte order, the byte halves of a word, and sign extension: the bit operations that decoding,
memory and the register ports share (00_scope.md R8, R9). -/

namespace Sys2Proof.Machine

/-- `v[7:0]`. -/
def loByte (v : Word) : Byte := v.extractLsb' 0 8

/-- `v[15:8]`. -/
def hiByte (v : Word) : Byte := v.extractLsb' 8 8

/-- `hi ++ lo`: in memory the low byte stands at the lower address (20_memory.md R60). -/
def wordOf (hi lo : Byte) : Word := hi ++ lo

/-- `zext_16(b)`. -/
def zeroExtend (b : Byte) : Word := b.setWidth 16

/-- `sext_16(b)` (42_alu_and_flags.md R170). -/
def signExtend (b : Byte) : Word := b.signExtend 16

end Sys2Proof.Machine
end

