-- ==== Sys2Proof/Syntax/Operand.lean ====
section
/-! DEFINITION. The operand forms: eight addressing modes, each with its register, and with the
displacement word where the mode uses it (40_operand_resolver.md R110, R116 to R123; 30_encoding.md R96). -/

namespace Sys2Proof

/-- The index of a general register, 0 to 7 (10_state.md R21). -/
abbrev Reg := Fin 8

/-- Register 7, the program counter (R22, R31). -/
abbrev Reg.pc : Reg := 7

/-- An operand: addressing mode and register; modes 6 and 7 carry the displacement word `X`, the only
modes that consult it (R110). -/
inductive Operand where
  /-- mode 0, `Rn` (R116) -/
  | registerDirect (r : Reg)
  /-- mode 1, `(Rn)` (R117) -/
  | registerDeferred (r : Reg)
  /-- mode 2, `(Rn)+` (R118) -/
  | autoincrement (r : Reg)
  /-- mode 3, `@(Rn)+` (R119) -/
  | deferredAutoincrement (r : Reg)
  /-- mode 4, `-(Rn)` (R120) -/
  | autodecrement (r : Reg)
  /-- mode 5, `@-(Rn)` (R121) -/
  | deferredAutodecrement (r : Reg)
  /-- mode 6, `X(Rn)` (R122) -/
  | index (r : Reg) (x : Word)
  /-- mode 7, `@X(Rn)` (R123) -/
  | deferredIndex (r : Reg) (x : Word)
deriving DecidableEq, Repr

/-- The register field of an operand. -/
def Operand.reg : Operand → Reg
  | .registerDirect r | .registerDeferred r | .autoincrement r | .deferredAutoincrement r
  | .autodecrement r | .deferredAutodecrement r | .index r _ | .deferredIndex r _ => r

/-- The displacement word an operand carries, if its mode consults one (R110). -/
def Operand.disp : Operand → Option Word
  | .index _ x | .deferredIndex _ x => some x
  | .registerDirect _ | .registerDeferred _ | .autoincrement _ | .deferredAutoincrement _
  | .autodecrement _ | .deferredAutodecrement _ => none

end Sys2Proof
end

