-- ==== Sys2Proof/Syntax.lean ====
section
/-! DEFINITION. The eight instructions, one constructor per row of spec/opcode_table.json, in its order
(30_encoding.md R88). -/

namespace Sys2Proof

/-- An instruction with its operands; source before destination (R83, R95). -/
inductive Instr where
  /-- MOV, move word (R180) -/
  | mov (src dst : Operand)
  /-- CMP, compare word (R181) -/
  | cmp (src dst : Operand)
  /-- ADD, add word (R182) -/
  | add (src dst : Operand)
  /-- SUB, subtract word (R183) -/
  | sub (src dst : Operand)
  /-- MOVB, move byte (R184) -/
  | movb (src dst : Operand)
  /-- CLR, clear word (R190) -/
  | clr (dst : Operand)
  /-- INC, increment word (R191) -/
  | inc (dst : Operand)
  /-- COMB, complement byte (R192) -/
  | comb (dst : Operand)
deriving DecidableEq, Repr

end Sys2Proof
end

