-- ==== Sys2Proof/WellFormed.lean ====
section
/-! DEFINITION. Which instruction terms an encoding exists for. Every mode and register is legal in every
operand (30_encoding.md R84), and the types admit no others, so one check is left: an instruction has ONE
displacement word, which both operands share (41_instruction_cycle.md R147, 70_reset_and_hazards.md R257). -/

namespace Sys2Proof

/-- Two operands can stand in one instruction: where both carry a displacement it is the same word (R147). -/
def Operand.sharesDisp (src dst : Operand) : Bool :=
  match src.disp, dst.disp with
  | some x, some y => x == y
  | _, _ => true

/-- The check on an instruction: R147 for the two-operand format, nothing for the one-operand format. -/
def Instr.wf : Instr → Bool
  | .mov src dst | .cmp src dst | .add src dst | .sub src dst | .movb src dst => src.sharesDisp dst
  | .clr _ | .inc _ | .comb _ => true

end Sys2Proof
end

