-- ==== Sys2Proof/Decode.lean ====
section
/-! DEFINITION. Decoding, total on every word and on every list of bytes, and the encoder written from the
same formats (30_encoding.md R80 to R93). -/

namespace Sys2Proof

open Machine (loByte hiByte wordOf)

/-- Why bytes are not an instruction. -/
inductive DecodeError where
  /-- no implemented operation has this opcode word: the step raises `DecodeFault(IR)` (R91, R92). -/
  | unimplemented (ir : Word)
  /-- the list ends inside the opcode word, or inside a displacement word that an operand needs (R80).
  Never met by a step, which always fetches both words (R85). -/
  | truncated
deriving DecidableEq, Repr

/-- The operand that a mode field and a register field name, given the step's displacement word (R82, R83, R110). -/
def operandOfFields (mode reg : BitVec 3) (x : Word) : Operand :=
  let r : Reg := reg.toFin
  match mode.toFin with
  | 0 => .registerDirect r
  | 1 => .registerDeferred r
  | 2 => .autoincrement r
  | 3 => .deferredAutoincrement r
  | 4 => .autodecrement r
  | 5 => .deferredAutodecrement r
  | 6 => .index r x
  | 7 => .deferredIndex r x

/-- `IR[15:12]`: the family, and the operation of the binary family (R81). -/
def famField (ir : Word) : BitVec 4 := ir.extractLsb' 12 4

/-- `IR[11:6]`: the selector of the unary families (R82). -/
def selField (ir : Word) : BitVec 6 := ir.extractLsb' 6 6

/-- The source operand, mode `IR[11:9]` and register `IR[8:6]` (R83). -/
def srcOperand (ir x : Word) : Operand := operandOfFields (ir.extractLsb' 9 3) (ir.extractLsb' 6 3) x

/-- The destination operand, mode `IR[5:3]` and register `IR[2:0]` (R82, R83). -/
def dstOperand (ir x : Word) : Operand := operandOfFields (ir.extractLsb' 3 3) (ir.extractLsb' 0 3) x

/-- `decode(IR)` of R91, with the step's displacement word given to the operands that consult it. -/
def decodeWords (ir x : Word) : Except DecodeError Instr :=
  let src := srcOperand ir x
  let dst := dstOperand ir x
  if famField ir = 0b0000 then
    if selField ir = 0o50 then .ok (.clr dst)
    else if selField ir = 0o52 then .ok (.inc dst)
    else .error (.unimplemented ir)
  else if famField ir = 0b1000 then
    if selField ir = 0o51 then .ok (.comb dst)
    else .error (.unimplemented ir)
  else if famField ir = 0b0001 then .ok (.mov src dst)
  else if famField ir = 0b0010 then .ok (.cmp src dst)
  else if famField ir = 0b0110 then .ok (.add src dst)
  else if famField ir = 0b1001 then .ok (.movb src dst)
  else if famField ir = 0b1110 then .ok (.sub src dst)
  else .error (.unimplemented ir)

/-- Some operand of the instruction consults the displacement word, that is, is in mode 6 or 7 (R80, R110). -/
def usesDisp : Instr → Bool
  | .mov src dst | .cmp src dst | .add src dst | .sub src dst | .movb src dst =>
    src.disp.isSome || dst.disp.isSome
  | .clr dst | .inc dst | .comb dst => dst.disp.isSome

/-- Decoding of a list of bytes: the little-endian opcode word (R60, R80), then the displacement word, which
may be missing where no operand consults it. -/
def decode : List Byte → Except DecodeError Instr
  | b0 :: b1 :: b2 :: b3 :: _ => decodeWords (wordOf b1 b0) (wordOf b3 b2)
  | b0 :: b1 :: _ =>
    match decodeWords (wordOf b1 b0) 0 with
    | .ok i => if usesDisp i then .error .truncated else .ok i
    | .error e => .error e
  | _ => .error .truncated

/-! ## The encoder -/

/-- The mode field of an operand (R96). -/
def modeField : Operand → BitVec 3
  | .registerDirect _ => 0
  | .registerDeferred _ => 1
  | .autoincrement _ => 2
  | .deferredAutoincrement _ => 3
  | .autodecrement _ => 4
  | .deferredAutodecrement _ => 5
  | .index _ _ => 6
  | .deferredIndex _ _ => 7

/-- The six bits of an operand, mode above register (R82, R83). -/
def operandField (o : Operand) : BitVec 6 := modeField o ++ (BitVec.ofFin o.reg : BitVec 3)

/-- The opcode word (R82, R83, R88). -/
def opcodeWord : Instr → Word
  | .mov src dst => 0b0001#4 ++ operandField src ++ operandField dst
  | .cmp src dst => 0b0010#4 ++ operandField src ++ operandField dst
  | .add src dst => 0b0110#4 ++ operandField src ++ operandField dst
  | .sub src dst => 0b1110#4 ++ operandField src ++ operandField dst
  | .movb src dst => 0b1001#4 ++ operandField src ++ operandField dst
  | .clr dst => 0b0000#4 ++ 0o50#6 ++ operandField dst
  | .inc dst => 0b0000#4 ++ 0o52#6 ++ operandField dst
  | .comb dst => 0b1000#4 ++ 0o51#6 ++ operandField dst

/-- The displacement word of an instruction, shared by its operands (R147), if it uses one. -/
def dispWord : Instr → Option Word
  | .mov src dst | .cmp src dst | .add src dst | .sub src dst | .movb src dst => src.disp.or dst.disp
  | .clr dst | .inc dst | .comb dst => dst.disp

/-- The words of an instruction: the opcode word and, for modes 6 and 7, one displacement word (R80). -/
def encode (i : Instr) : List Word := opcodeWord i :: (dispWord i).toList

/-- A word as the hardware stores it, low byte first (R60). -/
def bytesOfWord (v : Word) : List Byte := [loByte v, hiByte v]

/-- The bytes of an instruction, from its lowest address up. -/
def encodeBytes (i : Instr) : List Byte := (encode i).flatMap bytesOfWord

/-! ## A word of the opcode table -/

/-- The four bytes of an instruction whose bits, numbered as the opcode table numbers them, are the low
`nbits` bits of `w`; the bits above, the displacement word among them, are 0. -/
def tableBytes (nbits w : Nat) : List Byte :=
  let v := w % 2 ^ nbits
  [BitVec.ofNat 8 v, BitVec.ofNat 8 (v / 2 ^ 8), BitVec.ofNat 8 (v / 2 ^ 16), BitVec.ofNat 8 (v / 2 ^ 24)]

/-- The instruction the decoder reads from such a word, if any. -/
def decodeTableWord (nbits w : Nat) : Option Instr :=
  match decode (tableBytes nbits w) with
  | .ok i => some i
  | .error _ => none

end Sys2Proof
end

