-- ==== Sys2Proof/Config.lean ====
section
/-! DEFINITION. What is fixed when a machine is instantiated: the range of MEM_SIZE and the reset
contents of memory. The spec leaves no value open after an instruction, so there is no free value here. -/

namespace Sys2Proof

/-- MEM_SIZE, an integer `0 <= MEM_SIZE <= 65536`, fixed at construction (00_scope.md R6, D7). -/
abbrev MemSize := Fin 65537

/-- The MEM_SIZE of `Machine.State.reset`: the largest the spec allows, the size its test vectors use
where they name none. DESIGN CHOICE, log entry 2; unsafe only for a claim that rests on it, and no
statement does: `Machine.State.construct` takes every size. -/
def Config.resetMemSize : MemSize := 65536

/-- What a byte of memory that nothing has written since construction reads as: `0x00` (R250, R68 (c)). -/
def Config.unwrittenByte : Byte := 0x00

end Sys2Proof
end

