-- ==== Sys2Proof/Machine/State.lean ====
section
/-! DEFINITION. The state of one machine (10_state.md R20), as plain data, the two faults, and construction,
which is the block's only reset (70_reset_and_hazards.md R250). -/

namespace Sys2Proof.Machine

/-- The four flags, four separate bits with no positions (R34, R39). -/
structure Flags where
  n : Bool
  z : Bool
  v : Bool
  c : Bool
deriving DecidableEq, Repr

/-- The two faults, with what each records (60_exceptions.md R220, R221). The step that raises one answers a
next state with the partial state and this value in `State.status`; a further step asked of that machine
answers `Host.Outcome.fault` with it, since a faulted machine takes no step (R38). Log entry 1. -/
inductive Fault where
  /-- `DecodeFault(IR)`, raised at dispatch by a step whose opcode word has no implemented operation (R148,
  R222). Safe: the spec defines it for every such word. -/
  | decodeFault (ir : Word)
  /-- `MemoryAccessFault(a)`, raised by `MemRead` or `MemWrite` at an address outside memory (R223). Safe:
  the spec defines it. -/
  | memoryAccessFault (a : Word)
deriving DecidableEq, Repr

/-- Why the model has no meaning for an instruction. -/
inductive Refusal where
  /-- An arm of `exec` that has no meaning yet. No arm answers it: every instruction has its meaning. Safe. -/
  | notModelled (mnemonic : String)
deriving DecidableEq, Repr

/-- `RUNNING`, or `FAULTED(kind, info)` from the fault until the next construction (R38). -/
inductive Status where
  | running
  | faulted (f : Fault)
deriving DecidableEq, Repr

/-- Memory as (address, byte) pairs: addresses strictly rising, no byte equal to what an unlisted address
reads as (`Config.unwrittenByte`). -/
abbrev Memory := List Host.Cell

/-- The canonical form of memory. -/
def Memory.wf : Memory → Bool
  | [] => true
  | [c] => c.2 != Config.unwrittenByte
  | c :: d :: m => c.2 != Config.unwrittenByte && decide (c.1 < d.1) && Memory.wf (d :: m)

/-- The whole state of one machine (R20). -/
structure State where
  /-- `x[0]` to `x[7]`; `x[7]` is the program counter (R21, R31). -/
  regs : Vector Word 8
  /-- `N`, `Z`, `V`, `C` (R34). -/
  flags : Flags
  /-- `mem[0]` to `mem[MEM_SIZE-1]` (R41, R50). -/
  mem : Memory
  /-- `MEM_SIZE`, fixed at construction (R6). -/
  memSize : MemSize
  /-- `status` (R38). -/
  status : Status
deriving DecidableEq, Repr

/-- `new(memorySize)`: every register, flag and byte zero, status RUNNING (R201, R250). -/
def State.construct (size : MemSize) : State where
  regs := Vector.replicate 8 0x0000
  flags := ⟨false, false, false, false⟩
  mem := []
  memSize := size
  status := .running

/-- The machine right after reset, with the largest memory (R250; the size: log entry 2). -/
def State.reset : State := State.construct Config.resetMemSize

end Sys2Proof.Machine
end

