-- ==== Sys2Proof/Machine/Ops.lean ====
section
/-! DEFINITION. The named operations over registers, flags and memory, what a step is made of (`Sem`), and
taking a fault. -/

namespace Sys2Proof.Machine

/-- A piece of a step: it runs on a state and ends with a value, or raises a fault. Either way it leaves a
state, and a raise keeps everything done before it: nothing is rolled back (60_exceptions.md R225). -/
abbrev Sem (α : Type) := EStateM Fault State α

/-- `raise F(info)` (00_scope.md R9, R225). -/
def raise {α : Type} (f : Fault) : Sem α := fun s => .error f s

/-- Taking a fault, the one exception mechanism of the block: status becomes FAULTED with the kind and the
value recorded; nothing is saved, pushed or vectored, and no other state changes (R38, R149, R221, R230). -/
def takeFault (f : Fault) (s : State) : State := { s with status := .faulted f }

/-- The next state that a piece of a step leads to: the state it leaves, and where it raised, that partial
state with the fault taken (R149, R225; log entry 1). -/
def outcomeOf (body : Sem Unit) (s : State) : Host.Outcome State Fault Refusal :=
  match body s with
  | .ok _ t => .next t
  | .error f t => .next (takeFault f t)

/-- Operand width, one byte or one word (R114). -/
inductive Width where
  | byte
  | word
deriving DecidableEq, Repr

/-- `w`, the width in bytes. -/
def Width.bytes : Width → Nat
  | .byte => 1
  | .word => 2

/-- The step of modes 2 and 4: `w` as a word (R118, R120). -/
def Width.step : Width → Word
  | .byte => 1
  | .word => 2

/-! ## Registers and flags -/

/-- `x[r]` (10_state.md R24). -/
def State.reg (s : State) (r : Reg) : Word := s.regs[r.val]'r.isLt

/-- `x[r] <- v` (R24). -/
def State.setReg (s : State) (r : Reg) (v : Word) : State := { s with regs := s.regs.set r.val v r.isLt }

/-- The four flags replaced. -/
def State.setFlags (s : State) (fl : Flags) : State := { s with flags := fl }

/-- Memory replaced. -/
def State.setMem (s : State) (m : Memory) : State := { s with mem := m }

/-- `pc`, an alias of `x[7]` (R22, R31). -/
def State.pc (s : State) : Word := s.reg Reg.pc

/-- A register read through the word port or the byte port: all 16 bits, or the low 8 (R24, R25). A byte is
carried zero-extended (log entry 10). -/
def State.portRead (s : State) (w : Width) (r : Reg) : Word :=
  match w with
  | .word => s.reg r
  | .byte => zeroExtend (loByte (s.reg r))

/-- A register write through the word port or the byte port: all 16 bits, or the low 8 with bits 15:8 kept
(R24, R26). -/
def State.portWrite (s : State) (w : Width) (r : Reg) (v : Word) : State :=
  match w with
  | .word => s.setReg r v
  | .byte => s.setReg r (wordOf (hiByte (s.reg r)) (loByte v))

/-- `x[r]` inside a step. -/
def getReg (r : Reg) : Sem Word := fun s => .ok (s.reg r) s

/-- `x[r] <- v` inside a step. -/
def putReg (r : Reg) (v : Word) : Sem Unit := fun s => .ok () (s.setReg r v)

/-- The four old flags inside a step (42_alu_and_flags.md R160). -/
def getFlags : Sem Flags := fun s => .ok s.flags s

/-- The flag update: all four written together, before the write-back (R172). -/
def putFlags (f : Flags) : Sem Unit := fun s => .ok () (s.setFlags f)

/-! ## Memory as an array of bytes -/

/-- `mem[a]`: the byte listed for `a`, or the reset contents (R68 (c), R250). -/
def Memory.read : Memory → Nat → Byte
  | [], _ => Config.unwrittenByte
  | (k, b) :: m, a => if k = a then b else Memory.read m a

/-- `mem[a] <- v`, keeping the canonical form: a byte equal to the reset contents is not listed. -/
def Memory.write : Memory → Nat → Byte → Memory
  | [], a, v => if v = Config.unwrittenByte then [] else [(a, v)]
  | (k, b) :: m, a, v =>
    if a < k then
      if v = Config.unwrittenByte then (k, b) :: m else (a, v) :: (k, b) :: m
    else if a = k then
      if v = Config.unwrittenByte then m else (a, v) :: m
    else (k, b) :: Memory.write m a v

/-- The little-endian word at `a` (R56, R60). -/
def Memory.readWord (m : Memory) (a : Nat) : Word := wordOf (m.read (a + 1)) (m.read a)

/-- The little-endian word at `a` replaced: low byte, then high byte (R58, R60). -/
def Memory.writeWord (m : Memory) (a : Nat) (v : Word) : Memory :=
  (m.write a (loByte v)).write (a + 1) (hiByte v)

/-- An access of `n` bytes at `a` is in bounds: `a + n - 1 < MEM_SIZE`, the sum in the integers (R53). -/
def State.inBounds (s : State) (a : Word) (n : Nat) : Bool := decide (a.toNat + n ≤ s.memSize.val)

/-! ## The four primitives -/

/-- `MemRead(a, 1)` (20_memory.md R55). -/
def memReadByte (a : Word) : Sem Byte := fun s =>
  if s.inBounds a 1 then .ok (s.mem.read a.toNat) s else raise (.memoryAccessFault a) s

/-- `MemRead(a, 2)` (R56): both bytes are checked first (R59). -/
def memReadWord (a : Word) : Sem Word := fun s =>
  if s.inBounds a 2 then .ok (s.mem.readWord a.toNat) s else raise (.memoryAccessFault a) s

/-- `MemWrite(a, 1, v)` (R57). -/
def memWriteByte (a : Word) (v : Byte) : Sem Unit := fun s =>
  if s.inBounds a 1 then .ok () (s.setMem (s.mem.write a.toNat v)) else raise (.memoryAccessFault a) s

/-- `MemWrite(a, 2, v)` (R58): a write that faults stores neither byte (R59). -/
def memWriteWord (a : Word) (v : Word) : Sem Unit := fun s =>
  if s.inBounds a 2 then .ok () (s.setMem (s.mem.writeWord a.toNat v)) else raise (.memoryAccessFault a) s

/-- `MemRead(a, w)`, a byte carried zero-extended (R9; log entry 10). -/
def memRead (w : Width) (a : Word) : Sem Word :=
  match w with
  | .byte => do return zeroExtend (← memReadByte a)
  | .word => memReadWord a

/-- `MemWrite(a, w, v)`: the low `8w` bits of `v` (R9). -/
def memWrite (w : Width) (a v : Word) : Sem Unit :=
  match w with
  | .byte => memWriteByte a (loByte v)
  | .word => memWriteWord a v

end Sys2Proof.Machine
end

