-- ==== Sys2Proof/Machine/Cycle.lean ====
section
/-! DEFINITION. The instruction cycle up to execution (41_instruction_cycle.md R140 to R148). -/

namespace Sys2Proof.Machine

/-- Opcode fetch, advance by 2, displacement fetch at the advanced `x[7]`, in that order (R141, R142, R143):
the opcode word and the displacement word, latched before any operand is resolved (20_memory.md R71). -/
def fetchWords : Sem (Word × Word) := do
  let a ← getReg Reg.pc
  let ir ← memReadWord a
  putReg Reg.pc (a + 2)
  let x ← memReadWord (← getReg Reg.pc)
  return (ir, x)

/-- The cycle up to dispatch: a word with no implemented operation raises `DecodeFault(IR)` after both
fetches and the advance (R144, R148). -/
def fetchDecode : Sem Instr := do
  let (ir, x) ← fetchWords
  match decodeWords ir x with
  | .ok i => return i
  | .error _ => raise (.decodeFault ir)

/-- A word put at an address where a word can be read. -/
def placeWord (s : State) (a v : Word) : State :=
  if s.inBounds a 2 then s.setMem (s.mem.writeWord a.toNat v) else s

/-- A list of four bytes, the opcode word and the displacement word, put where the next step fetches them:
at `x[7]`, and at `x[7] + 2` wrapped (R141, R143). -/
def placeInstr (s : State) (bytes : List Byte) : State :=
  match bytes with
  | [b0, b1, b2, b3] => placeWord (placeWord s s.pc (wordOf b1 b0)) (s.pc + 2) (wordOf b3 b2)
  | _ => s

end Sys2Proof.Machine
end

