-- ==== Sys2Proof/Machine/Flags.lean ====
section
/-! DEFINITION. The arithmetic-logic unit as pure functions of the operand values and the old flags, at any
width; the block uses widths 16 and 8 (42_alu_and_flags.md R160 to R169). Results are modulo `2^W` (R171). -/

namespace Sys2Proof.Machine

/-- What an operation gives: a result and the four new flags (R160). -/
structure AluOut (W : Nat) where
  res : BitVec W
  flags : Flags
deriving DecidableEq, Repr

/-- N and Z from a result after truncation (R161, R162), with V and C as given. -/
def flagsOf {W : Nat} (res : BitVec W) (v c : Bool) : Flags := ⟨res.msb, decide (res = 0), v, c⟩

/-- PASS (R163): V cleared, C unchanged. -/
def aluPass {W : Nat} (s : BitVec W) (old : Flags) : AluOut W := ⟨s, flagsOf s false old.c⟩

/-- ADD (R164): C is the carry out. -/
def aluAdd {W : Nat} (s d : BitVec W) : AluOut W :=
  let res := s + d
  ⟨res, flagsOf res (decide (s.msb = d.msb ∧ d.msb ≠ res.msb)) (decide (2 ^ W ≤ s.toNat + d.toNat))⟩

/-- The V formula that the source gives to CMP and, letter for letter, to SUB (R165, R166). -/
def subtractV {W : Nat} (s d res : BitVec W) : Bool := decide (s.msb ≠ d.msb ∧ d.msb = res.msb)

/-- CMP (R165): source minus destination; C is set when NO borrow occurs. -/
def aluCmp {W : Nat} (s d : BitVec W) : AluOut W :=
  let res := s - d
  ⟨res, flagsOf res (subtractV s d res) (decide (d.toNat ≤ s.toNat))⟩

/-- SUB (R166): destination minus source, the reverse of CMP; C is set when NO borrow occurs; V by CMP's
formula, which is not signed overflow here (D17). -/
def aluSub {W : Nat} (s d : BitVec W) : AluOut W :=
  let res := d - s
  ⟨res, flagsOf res (subtractV s d res) (decide (s.toNat ≤ d.toNat))⟩

/-- CLR (R167). -/
def aluClr {W : Nat} : AluOut W := ⟨0, ⟨false, true, false, false⟩⟩

/-- INC (R168): V exactly when the old value was all ones; C unchanged. -/
def aluInc {W : Nat} (d : BitVec W) (old : Flags) : AluOut W :=
  let res := d + 1
  ⟨res, flagsOf res (decide (d = BitVec.allOnes W)) old.c⟩

/-- COM (R169): C always set. -/
def aluCom {W : Nat} (d : BitVec W) : AluOut W := ⟨~~~d, flagsOf (~~~d) false true⟩

end Sys2Proof.Machine
end

