-- ==== Sys2Proof/Machine/Operands.lean ====
section
/-! DEFINITION. The operand resolver (40_operand_resolver.md): each of the eight modes is a register change
before the access (modes 4 and 5), a storage location, and a register change after it (modes 2 and 3). -/

namespace Sys2Proof.Machine

/-- The phases of a read (R111). -/
inductive ReadPhase where
  /-- the only access to this operand -/
  | standalone
  /-- the first half of a read-modify-write pair -/
  | rmwFirst
deriving DecidableEq, Repr

/-- The phases of a write (R111). -/
inductive WritePhase where
  /-- the only access to this operand -/
  | standalone
  /-- the second half of a read-modify-write pair -/
  | rmwSecond
deriving DecidableEq, Repr

/-- Where an operand lies: a register (mode 0) or a memory address (modes 1 to 7). -/
inductive Location where
  | register (r : Reg)
  | memory (a : Word)
deriving DecidableEq, Repr

/-! ## The eight modes, as functions of the state -/

/-- The change of modes 4 and 5, before the access: by the width in mode 4, by 2 in mode 5 (R120, R121). -/
def decremented (o : Operand) (w : Width) (s : State) : State :=
  match o with
  | .autodecrement r => s.setReg r (s.reg r - w.step)
  | .deferredAutodecrement r => s.setReg r (s.reg r - 2)
  | .registerDirect _ | .registerDeferred _ | .autoincrement _ | .deferredAutoincrement _
  | .index _ _ | .deferredIndex _ _ => s

/-- The change of modes 2 and 3, after the access: by the width in mode 2, by 2 in mode 3 (R118, R119). -/
def incremented (o : Operand) (w : Width) (s : State) : State :=
  match o with
  | .autoincrement r => s.setReg r (s.reg r + w.step)
  | .deferredAutoincrement r => s.setReg r (s.reg r + 2)
  | .registerDirect _ | .registerDeferred _ | .autodecrement _ | .deferredAutodecrement _
  | .index _ _ | .deferredIndex _ _ => s

/-- Where the pointer of modes 3, 5 and 7 lies, the registers being as the access finds them (R119, R121,
R123). The pointer is a word whatever the operand width (R63, R114). -/
def pointerAddress (o : Operand) (s : State) : Option Word :=
  match o with
  | .deferredAutoincrement r | .deferredAutodecrement r | .deferredIndex r _ => some (s.reg r)
  | .registerDirect _ | .registerDeferred _ | .autoincrement _ | .autodecrement _ | .index _ _ => none

/-- Where the operand lies, the registers being as the access finds them and `p` the pointer of modes 3, 5
and 7 (R116 to R123). Mode 7 adds the displacement AFTER the indirection (R123). Sums wrap (R115). -/
def locationOf (o : Operand) (p : Word) (s : State) : Location :=
  match o with
  | .registerDirect r => .register r
  | .registerDeferred r | .autoincrement r | .autodecrement r => .memory (s.reg r)
  | .deferredAutoincrement _ | .deferredAutodecrement _ => .memory p
  | .index r x => .memory (s.reg r + x)
  | .deferredIndex _ x => .memory (p + x)

/-! ## The resolver -/

/-- The register change before the access, inside a step. -/
def preDecrement (o : Operand) (w : Width) : Sem Unit := fun s => .ok () (decremented o w s)

/-- The register change after the access, inside a step. -/
def postIncrement (o : Operand) (w : Width) : Sem Unit := fun s => .ok () (incremented o w s)

/-- The operand's location, reading the pointer word of modes 3, 5 and 7, which can fault (R127). -/
def locate (o : Operand) : Sem Location := do
  let s ← get
  match pointerAddress o s with
  | some a => return locationOf o (← memReadWord a) s
  | none => return locationOf o 0 s

/-- The value at a location (R116, R117). -/
def loadFrom (w : Width) : Location → Sem Word
  | .register r => fun s => .ok (s.portRead w r) s
  | .memory a => memRead w a

/-- A value put at a location (R116, R117). -/
def storeTo (w : Width) (v : Word) : Location → Sem Unit
  | .register r => fun s => .ok () (s.portWrite w r v)
  | .memory a => memWrite w a v

/-- `ReadOperand(m, r, X, w, ph)` (R112): the increment of modes 2 and 3 is suppressed in the first half of
a pair (R118, R119), the decrement of modes 4 and 5 is not (R120, R121). -/
def readOperand (o : Operand) (w : Width) (ph : ReadPhase) : Sem Word := do
  preDecrement o w
  let v ← loadFrom w (← locate o)
  match ph with
  | .standalone => postIncrement o w
  | .rmwFirst => pure ()
  return v

/-- `WriteOperand(m, r, X, w, v, ph)` (R113): the decrement of modes 4 and 5 is suppressed in the second
half of a pair (R120, R121), the increment of modes 2 and 3 is not (R118, R119). The location is computed
again from the registers and memory (R126). -/
def writeOperand (o : Operand) (w : Width) (v : Word) (ph : WritePhase) : Sem Unit := do
  match ph with
  | .standalone => preDecrement o w
  | .rmwSecond => pure ()
  storeTo w v (← locate o)
  postIncrement o w

end Sys2Proof.Machine
end

