-- ==== Sys2Proof/Machine/DoubleOperand.lean ====
section
/-! DEFINITION. The two-operand instructions (43_double_operand.md). All follow R185: source read whole, then
destination read, result, flags, write-back. They run after the fetch, so `x[7]` is the opcode address plus 2. -/

namespace Sys2Proof.Machine

/-- MOV (R180). -/
def execMov (src dst : Operand) (s : State) : Host.Outcome State Fault Refusal :=
  outcomeOf (do
    let v ← readOperand src .word .standalone
    let out := aluPass v (← getFlags)
    putFlags out.flags
    writeOperand dst .word out.res .standalone) s

/-- CMP (R181): both reads standalone, nothing stored. -/
def execCmp (src dst : Operand) (s : State) : Host.Outcome State Fault Refusal :=
  outcomeOf (do
    let v ← readOperand src .word .standalone
    let d ← readOperand dst .word .standalone
    putFlags (aluCmp v d).flags) s

/-- ADD (R182). -/
def execAdd (src dst : Operand) (s : State) : Host.Outcome State Fault Refusal :=
  outcomeOf (do
    let v ← readOperand src .word .standalone
    let d ← readOperand dst .word .rmwFirst
    let out := aluAdd v d
    putFlags out.flags
    writeOperand dst .word out.res .rmwSecond) s

/-- SUB (R183): destination minus source. -/
def execSub (src dst : Operand) (s : State) : Host.Outcome State Fault Refusal :=
  outcomeOf (do
    let v ← readOperand src .word .standalone
    let d ← readOperand dst .word .rmwFirst
    let out := aluSub v d
    putFlags out.flags
    writeOperand dst .word out.res .rmwSecond) s

/-- The write-back of MOVB: sign-extended through the word port in mode 0, one byte otherwise (R184). -/
def writeMovb (dst : Operand) (b : Byte) : Sem Unit :=
  match dst with
  | .registerDirect r => putReg r (signExtend b)
  | .registerDeferred _ | .autoincrement _ | .deferredAutoincrement _ | .autodecrement _
  | .deferredAutodecrement _ | .index _ _ | .deferredIndex _ _ =>
    writeOperand dst .byte (zeroExtend b) .standalone

/-- MOVB (R184): flags from the byte. -/
def execMovb (src dst : Operand) (s : State) : Host.Outcome State Fault Refusal :=
  outcomeOf (do
    let b := loByte (← readOperand src .byte .standalone)
    putFlags (aluPass b (← getFlags)).flags
    writeMovb dst b) s

end Sys2Proof.Machine
end

