-- ==== Sys2Proof/Machine/SingleOperand.lean ====
section
/-! DEFINITION. The single-operand instructions (44_single_operand.md). They run after the fetch, so `x[7]`
is the opcode address plus 2. -/

namespace Sys2Proof.Machine

/-- CLR (R190): flags first, then a standalone write; the old value is not read. -/
def execClr (dst : Operand) (s : State) : Host.Outcome State Fault Refusal :=
  outcomeOf (do
    let out : AluOut 16 := aluClr
    putFlags out.flags
    writeOperand dst .word out.res .standalone) s

/-- INC (R191). -/
def execInc (dst : Operand) (s : State) : Host.Outcome State Fault Refusal :=
  outcomeOf (do
    let d ← readOperand dst .word .rmwFirst
    let out := aluInc d (← getFlags)
    putFlags out.flags
    writeOperand dst .word out.res .rmwSecond) s

/-- COMB (R192): one byte; in mode 0 the high byte of the register is kept (R26). -/
def execComb (dst : Operand) (s : State) : Host.Outcome State Fault Refusal :=
  outcomeOf (do
    let d := loByte (← readOperand dst .byte .rmwFirst)
    let out := aluCom d
    putFlags out.flags
    writeOperand dst .byte (zeroExtend out.res) .rmwSecond) s

end Sys2Proof.Machine
end

