-- ==== Sys2Proof/Machine/Dispatch.lean ====
section
/-! DEFINITION. The execute stage: one arm per instruction (41_instruction_cycle.md R145). -/

namespace Sys2Proof.Machine

/-- What an instruction does to a state in which its fetch is done. -/
def exec (i : Instr) (s : State) : Host.Outcome State Fault Refusal :=
  match i with
  | .mov src dst => Sys2Proof.Machine.execMov src dst s
  | .cmp src dst => Sys2Proof.Machine.execCmp src dst s
  | .add src dst => Sys2Proof.Machine.execAdd src dst s
  | .sub src dst => Sys2Proof.Machine.execSub src dst s
  | .movb src dst => Sys2Proof.Machine.execMovb src dst s
  | .clr dst => Sys2Proof.Machine.execClr dst s
  | .inc dst => Sys2Proof.Machine.execInc dst s
  | .comb dst => Sys2Proof.Machine.execComb dst s

end Sys2Proof.Machine
end

