-- ==== Sys2Proof/Machine/Step.lean ====
section
/-! DEFINITION. One step (41_instruction_cycle.md R140), and an instruction placed where it fetches. -/

namespace Sys2Proof.Machine

/-- `step()` (R140). Only a RUNNING machine steps (10_state.md R38, 60_exceptions.md R232): asked of a FAULTED
one, it answers the recorded fault and no state (log entry 1). -/
def step (s : State) : Host.Outcome State Fault Refusal :=
  match s.status with
  | .faulted f => .fault f
  | .running =>
    match fetchDecode s with
    | .ok i t => exec i t
    | .error f t => .next (takeFault f t)

/-- The instruction whose bits are the low `nbits` bits of `w`, as the opcode table numbers them, put where
the next step fetches (log entries 7 and 11). -/
def State.withFetchWord (s : State) (nbits w : Nat) : State := placeInstr s (tableBytes nbits w)

end Sys2Proof.Machine
end

