-- ==== Sys2Proof/Machine/HostPort.lean ====
section
/-! DEFINITION. The block's interface to its host, as transactions that never overlap a step (50_interfaces.md
R200 to R210). Nothing here adds behaviour to a step. -/

namespace Sys2Proof.Machine

/-- The four flags by name (R207). -/
inductive FlagName where
  | n
  | z
  | v
  | c
deriving DecidableEq, Repr

/-- What the host may ask for, between transactions (R200, R209). Register and memory indexes of the raw
accessors are plain numbers, since an index outside the range can be asked for and is refused (R206). -/
inductive Request where
  /-- `new(memorySize)` (R201) -/
  | construct (size : MemSize)
  /-- `step()` (R202) -/
  | step
  /-- the low-level memory primitives (R204) -/
  | readByte (a : Word)
  | readWord (a : Word)
  | writeByte (a : Word) (v : Byte)
  | writeWord (a v : Word)
  /-- the raw register accessor (R205) -/
  | getReg (i : Nat)
  | setReg (i : Nat) (v : Word)
  /-- the program counter accessor, an alias of register 7 (R205) -/
  | getPc
  | setPc (v : Word)
  /-- the raw memory accessor, by which a program is loaded (R206) -/
  | getMem (a : Nat)
  | setMem (a : Nat) (v : Byte)
  /-- the flags, one by one (R207) -/
  | getFlag (f : FlagName)
  | setFlag (f : FlagName) (b : Bool)
  /-- the operand-level test port (R208) -/
  | readOperand (o : Operand) (w : Width) (ph : ReadPhase)
  | writeOperand (o : Operand) (w : Width) (v : Word) (ph : WritePhase)
deriving DecidableEq, Repr

/-- What the host is told (R203 to R208). -/
inductive Response where
  /-- the request is done; of a step, `Done` (R203) -/
  | done
  /-- `Fault(kind, info)` (R203); an out-of-bounds primitive answers it too (R204, R208) -/
  | fault (f : Fault)
  | byte (v : Byte)
  | word (v : Word)
  | flag (b : Bool)
  /-- the request is not one the host may make: no effect, no result (R202, R206, D23) -/
  | refused
deriving DecidableEq, Repr

/-- One of the four flags. -/
def Flags.get (fl : Flags) : FlagName → Bool
  | .n => fl.n
  | .z => fl.z
  | .v => fl.v
  | .c => fl.c

/-- One of the four flags written, the others kept. -/
def Flags.put (fl : Flags) (f : FlagName) (b : Bool) : Flags :=
  match f with
  | .n => { fl with n := b }
  | .z => { fl with z := b }
  | .v => { fl with v := b }
  | .c => { fl with c := b }

/-- A piece of a step that the host runs by itself: its answer and the state it leaves. Only a STEP makes a
machine FAULTED (R38), so a fault here is an answer and leaves the status as it was (log entry 6). -/
def answer {α : Type} (body : Sem α) (reply : α → Response) (s : State) : Response × State :=
  match body s with
  | .ok v t => (reply v, t)
  | .error f t => (.fault f, t)

/-- The step transaction (R202, R203): refused on a FAULTED machine; else Done or the fault that was raised. -/
def answerStep (s : State) : Response × State :=
  match step s with
  | .next t =>
    match t.status with
    | .running => (.done, t)
    | .faulted f => (.fault f, t)
  | .fault _ => (.refused, s)
  | .refused _ => (.refused, s)

/-- One transaction: what the host is told, and the state after it. -/
def transact (r : Request) (s : State) : Response × State :=
  match r with
  | .construct size => (.done, State.construct size)
  | .step => answerStep s
  | .readByte a => answer (memReadByte a) .byte s
  | .readWord a => answer (memReadWord a) .word s
  | .writeByte a v => answer (memWriteByte a v) (fun _ => .done) s
  | .writeWord a v => answer (memWriteWord a v) (fun _ => .done) s
  | .getReg i => if h : i < 8 then (.word (s.reg ⟨i, h⟩), s) else (.refused, s)
  | .setReg i v => if h : i < 8 then (.done, s.setReg ⟨i, h⟩ v) else (.refused, s)
  | .getPc => (.word s.pc, s)
  | .setPc v => (.done, s.setReg Reg.pc v)
  | .getMem a => if a < s.memSize.val then (.byte (s.mem.read a), s) else (.refused, s)
  | .setMem a v => if a < s.memSize.val then (.done, s.setMem (s.mem.write a v)) else (.refused, s)
  | .getFlag f => (.flag (s.flags.get f), s)
  | .setFlag f b => (.done, s.setFlags (s.flags.put f b))
  | .readOperand o .word ph => answer (readOperand o .word ph) .word s
  | .readOperand o .byte ph => answer (readOperand o .byte ph) (fun v => .byte (loByte v)) s
  | .writeOperand o w v ph => answer (writeOperand o w v ph) (fun _ => .done) s

end Sys2Proof.Machine
end

