-- ==== Sys2Proof/Safety.lean ====
section
/-! DEFINITION. What claims are stated in: states in the form every run keeps, operands whose accesses are all
in bounds, and what resolving such an operand gives. -/

namespace Sys2Proof.Machine

/-- The form of a state that every step keeps: memory canonical, and no byte listed at an address that does
not exist (R50). -/
def State.inv (s : State) : Bool := s.mem.wf && s.mem.all fun c => decide (c.1 < s.memSize.val)

/-- `k` steps complete, none of them faulting: the machine is RUNNING all along (R149, R229). -/
def runsSafely : Nat → State → Bool
  | 0, s => s.status == .running
  | k + 1, s =>
    s.status == .running &&
      match step s with
      | .next t => runsSafely k t
      | .fault _ => false
      | .refused _ => false

/-! ## The words a step fetches -/

/-- The opcode word at `x[7]` (R141). -/
def opcodeAt (s : State) : Word := s.mem.readWord s.pc.toNat

/-- The displacement word at the advanced `x[7]`, wrapped (R143). -/
def dispAt (s : State) : Word := s.mem.readWord (s.pc + 2).toNat

/-- The state after the one advance of `x[7]` (R142). -/
def advanced (s : State) : State := s.setReg Reg.pc (s.pc + 2)

/-- Both fetches are in bounds (R141, R143). -/
def fetchFits (s : State) : Bool := s.inBounds s.pc 2 && s.inBounds (s.pc + 2) 2

/-! ## One operand, all accesses in bounds

`decremented`, `incremented`, `pointerAddress` and `locationOf` are the resolver's own functions. -/

/-- The pointer word of modes 3, 5 and 7. -/
def pointerWord (o : Operand) (s : State) : Word :=
  match pointerAddress o s with
  | some a => s.mem.readWord a.toNat
  | none => 0

/-- Where an operand lies, once its register has been decremented. -/
def operandLocation (o : Operand) (w : Width) (s : State) : Location :=
  locationOf o (pointerWord o (decremented o w s)) (decremented o w s)

/-- The pointer word, if the mode has one, is inside memory (R53). -/
def pointerFits (o : Operand) (w : Width) (s : State) : Bool :=
  (pointerAddress o (decremented o w s)).all fun a => s.inBounds a 2

/-- The operand itself is inside memory, or is a register (R53). -/
def locationFits (o : Operand) (w : Width) (s : State) : Bool :=
  match operandLocation o w s with
  | .register _ => true
  | .memory a => s.inBounds a w.bytes

/-- Every access of the operand is in bounds (R127). -/
def operandFits (o : Operand) (w : Width) (s : State) : Bool := pointerFits o w s && locationFits o w s

/-- The value of an operand, a byte zero-extended. -/
def operandValue (o : Operand) (w : Width) (s : State) : Word :=
  match operandLocation o w s, w with
  | .register r, w => s.portRead w r
  | .memory a, .word => s.mem.readWord a.toNat
  | .memory a, .byte => zeroExtend (s.mem.read a.toNat)

/-- The state after an operand's one register change (R124, R125). -/
def moved (o : Operand) (w : Width) (s : State) : State := incremented o w (decremented o w s)

/-- The state after an operand is written, its register change included. -/
def stored (o : Operand) (w : Width) (v : Word) (s : State) : State :=
  match operandLocation o w s, w with
  | .register r, w => s.portWrite w r v
  | .memory a, .word => (moved o w s).setMem (s.mem.writeWord a.toNat v)
  | .memory a, .byte => (moved o w s).setMem (s.mem.write a.toNat (loByte v))

/-- The address an operand that does not fit reports: its pointer's, if that is out of bounds, else its own
(R221, R224). -/
def faultAddress (o : Operand) (w : Width) (s : State) : Word :=
  if pointerFits o w s then
    match operandLocation o w s with
    | .register _ => 0
    | .memory a => a
  else (pointerAddress o (decremented o w s)).getD 0

/-- How much resolving an operand moves its register, once: the width in modes 2 and 4, 2 in modes 3 and 5,
up or down, and 0 in the other modes (R124, R125). -/
def netChange (o : Operand) (w : Width) : Word :=
  match o with
  | .autoincrement _ => w.step
  | .deferredAutoincrement _ => 2
  | .autodecrement _ => 0 - w.step
  | .deferredAutodecrement _ => 0 - 2
  | .registerDirect _ | .registerDeferred _ | .index _ _ | .deferredIndex _ _ => 0

/-! ## What an instruction may change -/

/-- The register that a mode changes as a side effect, modes 2 to 5 (R28 (b)). -/
def sideEffectReg : Operand → Option Reg
  | .autoincrement r | .deferredAutoincrement r | .autodecrement r | .deferredAutodecrement r => some r
  | .registerDirect _ | .registerDeferred _ | .index _ _ | .deferredIndex _ _ => none

/-- The register that a destination in mode 0 names (R28 (c)). -/
def directReg : Operand → Option Reg
  | .registerDirect r => some r
  | .registerDeferred _ | .autoincrement _ | .deferredAutoincrement _ | .autodecrement _
  | .deferredAutodecrement _ | .index _ _ | .deferredIndex _ _ => none

/-- The registers an instruction may change, after its fetch: the side effects of its operands, and a
destination in mode 0 that it writes, which CMP does not (R28, R181). -/
def changedRegs : Instr → List Reg
  | .mov src dst | .add src dst | .sub src dst | .movb src dst =>
    (sideEffectReg src).toList ++ (sideEffectReg dst).toList ++ (directReg dst).toList
  | .cmp src dst => (sideEffectReg src).toList ++ (sideEffectReg dst).toList
  | .clr dst | .inc dst | .comb dst => (sideEffectReg dst).toList ++ (directReg dst).toList

/-- `a` is one of the bytes of an operand that lies in memory. -/
def spans (o : Operand) (w : Width) (s : State) (a : Nat) : Prop :=
  match operandLocation o w s with
  | .register _ => False
  | .memory b => b.toNat ≤ a ∧ a < b.toNat + w.bytes

/-- `a` is one of the bytes an instruction stores to: the width's bytes from its destination's address,
computed in the state its source leaves; none for CMP or a destination in mode 0 (R72, R185). -/
def storesTo (i : Instr) (s : State) (a : Nat) : Prop :=
  match i with
  | .mov src dst | .add src dst | .sub src dst => spans dst .word (moved src .word s) a
  | .movb src dst => spans dst .byte (moved src .byte s) a
  | .cmp _ _ => False
  | .clr dst | .inc dst => spans dst .word s a
  | .comb dst => spans dst .byte s a

end Sys2Proof.Machine
end

