-- ==== Sys2Proof/Certificates/Slice0/Obligations.lean ====
section
/-! DEFINITION. The statements for the provers. Each docstring names the rules of spec/ or the log entry that
the statement rests on; NOTES.md says what `operandFits`, `operandValue`, `moved` and `stored` stand for. -/

open Sys2Proof Sys2Proof.Machine

/-! ## Encoding -/

/-- R98: the four worked encodings of the source. -/
def Obligations.SourceWordsDecode : Prop :=
  ∀ x : Word,
    decodeWords 0x6084 x = .ok (.add (.registerDirect 2) (.registerDirect 4)) ∧
    decodeWords 0x6484 x = .ok (.add (.autoincrement 2) (.registerDirect 4)) ∧
    decodeWords 0x0A15 x = .ok (.clr (.autoincrement 5)) ∧
    decodeWords 0x8A44 x = .ok (.comb (.registerDirect 4))

/-- The words of the instruction rules' examples for the five operations whose selectors the source does not
give (30_encoding.md section 3, log entry 4), and one word with the displacement in use. -/
def Obligations.ExampleWordsDecode : Prop :=
  ∀ x : Word,
    decodeWords 0o010103 x = .ok (.mov (.registerDirect 1) (.registerDirect 3)) ∧
    decodeWords 0o020001 x = .ok (.cmp (.registerDirect 0) (.registerDirect 1)) ∧
    decodeWords 0o160001 x = .ok (.sub (.registerDirect 0) (.registerDirect 1)) ∧
    decodeWords 0o110113 x = .ok (.movb (.registerDirect 1) (.registerDeferred 3)) ∧
    decodeWords 0o005203 x = .ok (.inc (.registerDirect 3)) ∧
    decodeWords 0o066172 x = .ok (.add (.index 1 x) (.deferredIndex 2 x))

/-- Decoding gives back every well-formed instruction from its bytes, whatever follows them (30_encoding.md
sections 1 to 3). -/
def Obligations.DecodeEncodeRoundTrip : Prop :=
  ∀ (i : Instr) (rest : List Byte), i.wf = true → decode (encodeBytes i ++ rest) = .ok i

/-- A decoded term is well-formed, its opcode word is the word decoded, and its displacement is the step's `X`
where an operand consults it (30_encoding.md sections 1 to 3, 41_instruction_cycle.md section 2). -/
def Obligations.DecodedTermsReencode : Prop :=
  ∀ (ir x : Word) (i : Instr), decodeWords ir x = .ok i →
    i.wf = true ∧ opcodeWord i = ir ∧ dispWord i = if usesDisp i then some x else none

/-- Decoding follows the opcode map's match and mask columns, and every other word is unimplemented
(30_encoding.md sections 3 and 4). -/
def Obligations.DecodeFollowsOpcodeMap : Prop :=
  ∀ ir x : Word,
    let src := srcOperand ir x
    let dst := dstOperand ir x
    (ir &&& 0xF000 = 0x1000 → decodeWords ir x = .ok (.mov src dst)) ∧
    (ir &&& 0xF000 = 0x2000 → decodeWords ir x = .ok (.cmp src dst)) ∧
    (ir &&& 0xF000 = 0x6000 → decodeWords ir x = .ok (.add src dst)) ∧
    (ir &&& 0xF000 = 0xE000 → decodeWords ir x = .ok (.sub src dst)) ∧
    (ir &&& 0xF000 = 0x9000 → decodeWords ir x = .ok (.movb src dst)) ∧
    (ir &&& 0xFFC0 = 0x0A00 → decodeWords ir x = .ok (.clr dst)) ∧
    (ir &&& 0xFFC0 = 0x0A80 → decodeWords ir x = .ok (.inc dst)) ∧
    (ir &&& 0xFFC0 = 0x8A40 → decodeWords ir x = .ok (.comb dst)) ∧
    (ir &&& 0xF000 ∉ [0x1000, 0x2000, 0x6000, 0xE000, 0x9000] →
      ir &&& 0xFFC0 ∉ [0x0A00, 0x0A80, 0x8A40] → decodeWords ir x = .error (.unimplemented ir))

/-! ## The instruction cycle -/

/-- A step runs the decoded instruction: where both fetches are in bounds and the four fetched bytes decode to
`i`, the step is `exec` of `i` in the state whose `x[7]` is advanced by 2, never past the displacement word
(41_instruction_cycle.md section 1). -/
def Obligations.StepRunsDecodedInstruction : Prop :=
  ∀ (s : State) (i : Instr), s.status = .running → fetchFits s = true →
    decode [s.mem.read s.pc.toNat, s.mem.read (s.pc.toNat + 1),
      s.mem.read (s.pc + 2).toNat, s.mem.read ((s.pc + 2).toNat + 1)] = .ok i →
    step s = exec i (advanced s)

/-- R141: an opcode fetch out of bounds raises at `x[7]` and changes nothing else; one in bounds is the
little-endian word there, at any address, odd or even. -/
def Obligations.OpcodeFetch : Prop :=
  ∀ s : State,
    (s.inBounds s.pc 2 = true → memReadWord s.pc s = .ok (opcodeAt s) s) ∧
    (s.status = .running → s.inBounds s.pc 2 = false →
      step s = .next (takeFault (.memoryAccessFault s.pc) s))

/-- The displacement fetch happens for every opcode word and faults at the advanced, wrapped `x[7]`, with
`x[7]` advanced and nothing else changed (41_instruction_cycle.md section 1). -/
def Obligations.DisplacementFetchFault : Prop :=
  ∀ s : State, s.status = .running → s.inBounds s.pc 2 = true → s.inBounds (s.pc + 2) 2 = false →
    step s = .next (takeFault (.memoryAccessFault (s.pc + 2)) (advanced s))

/-- A word with no implemented operation raises `DecodeFault(IR)` with `x[7]` advanced and nothing else changed,
unless its displacement fetch is out of bounds, which raises first: the spec's decision D10, with the advance
kept by 90_conflicts.md C5 (41_instruction_cycle.md section 3; log entry 5). -/
def Obligations.UnimplementedWordFaults : Prop :=
  ∀ (s : State) (e : DecodeError), s.status = .running → s.inBounds s.pc 2 = true →
    decodeWords (opcodeAt s) (dispAt s) = .error e →
    (s.inBounds (s.pc + 2) 2 = true →
      ∃ t, step s = .next t ∧ t.status = .faulted (.decodeFault (opcodeAt s)) ∧ t.pc = s.pc + 2 ∧
        (∀ q, q ≠ Reg.pc → t.reg q = s.reg q) ∧ t.flags = s.flags ∧ t.mem = s.mem ∧ t.memSize = s.memSize) ∧
    (s.inBounds (s.pc + 2) 2 = false →
      step s = .next (takeFault (.memoryAccessFault (s.pc + 2)) (advanced s)))

/-- A FAULTED machine takes no step, and a step asked of it answers what was recorded (10_state.md section 5;
that this answer is an `Outcome.fault` is log entry 1). -/
def Obligations.FaultedMachineTakesNoStep : Prop :=
  ∀ (s : State) (f : Fault), s.status = .faulted f → step s = .fault f

/-- A step of a RUNNING machine always answers a next state: completed and RUNNING, or FAULTED. It never
changes MEM_SIZE (41_instruction_cycle.md section 4; the faulted next state is log entry 1). -/
def Obligations.RunningStepAnswersNextState : Prop :=
  ∀ s : State, s.status = .running →
    ∃ t, step s = .next t ∧ t.memSize = s.memSize ∧ (t.status = .running ∨ ∃ f, t.status = .faulted f)

/-- After its one advance, `x[7]` moves in a completed step only as a mode-0 destination or as the base of
mode 2, 3, 4 or 5: the displacement word is never skipped (41_instruction_cycle.md sections 2 and 4). -/
def Obligations.ProgramCounterAdvancesByTwo : Prop :=
  ∀ (s t : State) (i : Instr), s.status = .running → fetchFits s = true →
    decodeWords (opcodeAt s) (dispAt s) = .ok i → Reg.pc ∉ changedRegs i → step s = .next t →
    t.pc = s.pc + 2

/-- `MOV #n,Rd`, that is `(PC)+` to a register other than 7: the word after the opcode is the literal, and
`x[7]` ends past it (30_encoding.md section 5, 40_operand_resolver.md section 5). -/
def Obligations.LiteralSourceIsSkipped : Prop :=
  ∀ (s : State) (d : Reg), s.status = .running → fetchFits s = true → d ≠ Reg.pc →
    opcodeAt s = 0o012700 + BitVec.ofNat 16 d.val →
    ∃ t, step s = .next t ∧ t.status = .running ∧ t.reg d = dispAt s ∧ t.pc = s.pc + 4 ∧
      ∀ q, q ≠ d → q ≠ Reg.pc → t.reg q = s.reg q

/-- An instruction put where the next step fetches is what it runs, so a stored word is seen by the very next
fetch (20_memory.md section 6; `withFetchWord` is log entries 7 and 11). -/
def Obligations.PlacedInstructionRuns : Prop :=
  ∀ (s : State) (w : Word) (i : Instr), s.inv = true → s.status = .running →
    s.pc.toNat + 4 ≤ s.memSize.val → decodeWords w 0 = .ok i →
    ∃ m, step (s.withFetchWord 16 w.toNat) = exec i ((advanced s).setMem m) ∧
      m.readWord s.pc.toNat = w ∧ m.readWord (s.pc.toNat + 2) = 0 ∧
      ∀ a, a < s.pc.toNat ∨ s.pc.toNat + 4 ≤ a → m.read a = s.mem.read a

/-! ## Reset -/

/-- R250: construction leaves every register, flag and byte zero, RUNNING, with the size given, and nothing
but a construction changes that size. -/
def Obligations.ConstructionZeroes : Prop :=
  (∀ n : MemSize,
    let s := State.construct n
    (∀ r, s.reg r = 0x0000) ∧ s.flags = ⟨false, false, false, false⟩ ∧ (∀ a, s.mem.read a = 0x00) ∧
      s.status = .running ∧ s.memSize = n) ∧
    (∀ s t : State, step s = .next t → t.memSize = s.memSize) ∧
    ∀ (r : Request) (s : State), (∀ n, r ≠ .construct n) → (transact r s).2.memSize = s.memSize

/-- The first step after construction, nothing loaded, for every memory size (70_reset_and_hazards.md
section 1). -/
def Obligations.FirstStepAfterReset : Prop :=
  ∀ n : MemSize,
    let s := State.construct n
    (n.val ≤ 1 → step s = .next (takeFault (.memoryAccessFault 0x0000) s)) ∧
    (2 ≤ n.val → n.val ≤ 3 → step s = .next (takeFault (.memoryAccessFault 0x0002) (s.setReg 7 0x0002))) ∧
    (4 ≤ n.val → step s = .next (takeFault (.decodeFault 0x0000) (s.setReg 7 0x0002)))

/-! ## Invariants -/

/-- The machine after construction, of any size, `State.reset` among them, is in the form every run keeps
(20_memory.md section 1). -/
def Obligations.ResetHasInvariant : Prop :=
  State.reset.inv = true ∧ ∀ n : MemSize, (State.construct n).inv = true

/-- Every step keeps memory canonical and inside MEM_SIZE, and MEM_SIZE as it is, from every state in that
form (20_memory.md section 1). -/
def Obligations.StepKeepsInvariant : Prop :=
  ∀ s t : State, s.inv = true → step s = .next t → t.inv = true ∧ t.memSize = s.memSize

/-- So does every transaction of the host, but for a construction, which sets a new size (50_interfaces.md).
That it holds from a FAULTED machine too is log entry 9; an access out of bounds answers by log entry 6. -/
def Obligations.HostKeepsInvariant : Prop :=
  ∀ (r : Request) (s : State), s.inv = true →
    (transact r s).2.inv = true ∧
      ((∀ n, r ≠ .construct n) → (transact r s).2.memSize = s.memSize)

/-! ## Memory -/

/-- R62: a word written at a valid offset reads back, and its two bytes are its low and its high byte. -/
def Obligations.WordPackingLaw : Prop :=
  ∀ (s : State) (a v : Word), s.inv = true → a.toNat + 1 < s.memSize.val →
    ∃ t, memWriteWord a v s = .ok () t ∧ memReadWord a t = .ok v t ∧
      memReadByte a t = .ok ((v &&& 0xFF).setWidth 8) t ∧
      memReadByte (a + 1) t = .ok ((v >>> 8).setWidth 8) t

/-- Byte reads after a word write, a word read after two byte writes, and words at `a` and `a + 1`
overlapping in `mem[a+1]` (20_memory.md section 3). -/
def Obligations.MixedWidthAccesses : Prop :=
  ∀ (s : State) (a : Word), s.inv = true → a.toNat + 1 < s.memSize.val →
    (∀ v : Word, ∃ t, memWriteWord a v s = .ok () t ∧ memReadByte a t = .ok (v.extractLsb' 0 8) t ∧
      memReadByte (a + 1) t = .ok (v.extractLsb' 8 8) t) ∧
    (∀ b0 b1 : Byte, ∃ t u, memWriteByte a b0 s = .ok () t ∧ memWriteByte (a + 1) b1 t = .ok () u ∧
      memReadWord a u = .ok (b1 ++ b0) u) ∧
    (∀ v u : Word, a.toNat + 2 < s.memSize.val → ∃ t t', memWriteWord a v s = .ok () t ∧
      memWriteWord (a + 1) u t = .ok () t' ∧
      memReadWord a t' = .ok ((u.extractLsb' 0 8 : Byte) ++ (v.extractLsb' 0 8 : Byte)) t')

/-- R55, R56: a read gives the byte, or the little-endian word, exactly when all of it is below MEM_SIZE, the
sum in the integers; else it raises at its own address. It never changes the state. -/
def Obligations.ReadsAreBoundsChecked : Prop :=
  ∀ (s : State) (a : Word),
    (a.toNat < s.memSize.val → memReadByte a s = .ok (s.mem.read a.toNat) s) ∧
    (s.memSize.val ≤ a.toNat → memReadByte a s = .error (.memoryAccessFault a) s) ∧
    (a.toNat + 1 < s.memSize.val →
      memReadWord a s = .ok (s.mem.read (a.toNat + 1) ++ s.mem.read a.toNat) s) ∧
    (s.memSize.val ≤ a.toNat + 1 → memReadWord a s = .error (.memoryAccessFault a) s)

/-- A write in bounds stores its one or two bytes, low byte first, and no other; one out of bounds raises at its
own address and stores neither byte, which is the spec's decision D11 (20_memory.md section 2; log entry 5). -/
def Obligations.WritesAreBoundsChecked : Prop :=
  ∀ (s : State) (a : Word), s.inv = true →
    (∀ v : Byte, a.toNat < s.memSize.val → ∃ m, memWriteByte a v s = .ok () (s.setMem m) ∧
      ∀ b, m.read b = if b = a.toNat then v else s.mem.read b) ∧
    (∀ v : Byte, s.memSize.val ≤ a.toNat → memWriteByte a v s = .error (.memoryAccessFault a) s) ∧
    (∀ v : Word, a.toNat + 1 < s.memSize.val → ∃ m, memWriteWord a v s = .ok () (s.setMem m) ∧
      ∀ b, m.read b = if b = a.toNat then v.extractLsb' 0 8
        else if b = a.toNat + 1 then v.extractLsb' 8 8 else s.mem.read b) ∧
    (∀ v : Word, s.memSize.val ≤ a.toNat + 1 → memWriteWord a v s = .error (.memoryAccessFault a) s)

/-! ## Registers and the operand resolver -/

/-- The byte port changes only the low 8 bits of the one register it writes; the word port all 16
(10_state.md section 2). -/
def Obligations.RegisterPorts : Prop :=
  ∀ (s : State) (r : Reg) (v : Word),
    (s.portWrite .word r v).reg r = v ∧
    (s.portWrite .byte r v).reg r = (s.reg r).extractLsb' 8 8 ++ (v.extractLsb' 0 8 : Byte) ∧
    s.portRead .byte r = ((s.reg r).extractLsb' 0 8 : Byte).setWidth 16 ∧
    ∀ (w : Width) (q : Reg), q ≠ r → (s.portWrite w r v).reg q = s.reg q

/-- R116, R117, R122, R123: modes 0, 1, 6 and 7, read and written in every phase; no register moves, and
mode 7 adds the displacement after the indirection. -/
def Obligations.ModesWithoutSideEffect : Prop :=
  ∀ (s : State) (r : Reg) (w : Width) (x v : Word) (rp : ReadPhase) (wp : WritePhase),
    (readOperand (.registerDirect r) w rp s = .ok (s.portRead w r) s ∧
      writeOperand (.registerDirect r) w v wp s = .ok () (s.portWrite w r v)) ∧
    (readOperand (.registerDeferred r) w rp s = memRead w (s.reg r) s ∧
      writeOperand (.registerDeferred r) w v wp s = memWrite w (s.reg r) v s) ∧
    (readOperand (.index r x) w rp s = memRead w (s.reg r + x) s ∧
      writeOperand (.index r x) w v wp s = memWrite w (s.reg r + x) v s) ∧
    (readOperand (.deferredIndex r x) w rp s =
        (match memReadWord (s.reg r) s with
          | .ok p t => memRead w (p + x) t
          | .error f t => .error f t) ∧
      writeOperand (.deferredIndex r x) w v wp s =
        (match memReadWord (s.reg r) s with
          | .ok p t => memWrite w (p + x) v t
          | .error f t => .error f t))

/-- R118, R119: modes 2 and 3. The access comes before the increment, so a fault leaves the register; the
first half of a pair does not increment; the step is the width in mode 2 and 2 in mode 3. -/
def Obligations.AutoincrementModes : Prop :=
  ∀ (s : State) (r : Reg) (w : Width) (v : Word) (wp : WritePhase),
    let n : Word := match w with | .byte => 1 | .word => 2
    (readOperand (.autoincrement r) w .standalone s =
        (match memRead w (s.reg r) s with
          | .ok u t => .ok u (t.setReg r (s.reg r + n))
          | .error f t => .error f t) ∧
      readOperand (.autoincrement r) w .rmwFirst s = memRead w (s.reg r) s ∧
      writeOperand (.autoincrement r) w v wp s =
        (match memWrite w (s.reg r) v s with
          | .ok _ t => .ok () (t.setReg r (s.reg r + n))
          | .error f t => .error f t)) ∧
    (s.inBounds (s.reg r) 2 = false →
      (∀ rp, readOperand (.deferredAutoincrement r) w rp s = .error (.memoryAccessFault (s.reg r)) s) ∧
      writeOperand (.deferredAutoincrement r) w v wp s = .error (.memoryAccessFault (s.reg r)) s) ∧
    (s.inBounds (s.reg r) 2 = true →
      let p := s.mem.readWord (s.reg r).toNat
      readOperand (.deferredAutoincrement r) w .standalone s =
          (match memRead w p s with
            | .ok u t => .ok u (t.setReg r (s.reg r + 2))
            | .error f t => .error f t) ∧
        readOperand (.deferredAutoincrement r) w .rmwFirst s = memRead w p s ∧
        writeOperand (.deferredAutoincrement r) w v wp s =
          (match memWrite w p v s with
            | .ok _ t => .ok () (t.setReg r (s.reg r + 2))
            | .error f t => .error f t))

/-- R120, R121: modes 4 and 5. The decrement comes first and stays when the access faults; both read phases
decrement, the second half of a pair does not; the step is the width in mode 4 and 2 in mode 5. -/
def Obligations.AutodecrementModes : Prop :=
  ∀ (s : State) (r : Reg) (w : Width) (v : Word) (rp : ReadPhase),
    let n : Word := match w with | .byte => 1 | .word => 2
    let s1 := s.setReg r (s.reg r - n)
    let s2 := s.setReg r (s.reg r - 2)
    (readOperand (.autodecrement r) w rp s = memRead w (s.reg r - n) s1 ∧
      writeOperand (.autodecrement r) w v .standalone s = memWrite w (s.reg r - n) v s1 ∧
      writeOperand (.autodecrement r) w v .rmwSecond s = memWrite w (s.reg r) v s) ∧
    (readOperand (.deferredAutodecrement r) w rp s =
        (match memReadWord (s.reg r - 2) s2 with
          | .ok p t => memRead w p t
          | .error f t => .error f t) ∧
      writeOperand (.deferredAutodecrement r) w v .standalone s =
        (match memReadWord (s.reg r - 2) s2 with
          | .ok p t => memWrite w p v t
          | .error f t => .error f t) ∧
      writeOperand (.deferredAutodecrement r) w v .rmwSecond s =
        (match memReadWord (s.reg r) s with
          | .ok p t => memWrite w p v t
          | .error f t => .error f t))

/-- A read-modify-write pair on one operand: once the first half has read, the second half cannot fault,
whatever flags were written between, and the pair moves the operand's register exactly once
(40_operand_resolver.md section 3). Mode 0 is in `ModesWithoutSideEffect`. -/
def Obligations.PairMovesRegisterOnce : Prop :=
  ∀ (o : Operand) (w : Width) (s s1 : State) (v u : Word) (fl : Flags),
    readOperand o w .rmwFirst s = .ok v s1 →
    ∃ t, writeOperand o w u .rmwSecond (s1.setFlags fl) = .ok () t ∧
      (∀ q, q ≠ o.reg → t.reg q = s.reg q) ∧
      (directReg o = none → t.reg o.reg = s.reg o.reg + netChange o w)

/-- A standalone read or write moves the operand's register exactly once (40_operand_resolver.md section 3). -/
def Obligations.StandaloneAccessMovesRegisterOnce : Prop :=
  ∀ (o : Operand) (w : Width) (s : State),
    (∀ (v : Word) (t : State), readOperand o w .standalone s = .ok v t →
      t.reg o.reg = s.reg o.reg + netChange o w ∧ ∀ q, q ≠ o.reg → t.reg q = s.reg q) ∧
    (∀ (v : Word) (t : State), writeOperand o w v .standalone s = .ok () t →
      (directReg o = none → t.reg o.reg = s.reg o.reg + netChange o w) ∧
      ∀ q, q ≠ o.reg → t.reg q = s.reg q)

/-- An operand faults exactly when one of its accesses is out of bounds, and then the state is as before but
for the decrement of modes 4 and 5 (40_operand_resolver.md section 4). -/
def Obligations.OperandFaultState : Prop :=
  ∀ (o : Operand) (w : Width) (s : State),
    (operandFits o w s = true → ∀ rp, ∃ v t, readOperand o w rp s = .ok v t) ∧
    (operandFits o w s = false →
      let t := match o with
        | .autodecrement r => s.setReg r (s.reg r - w.step)
        | .deferredAutodecrement r => s.setReg r (s.reg r - 2)
        | _ => s
      (∀ rp, readOperand o w rp s = .error (.memoryAccessFault (faultAddress o w s)) t) ∧
      (∀ v, writeOperand o w v .standalone s = .error (.memoryAccessFault (faultAddress o w s)) t) ∧
      ∃ n, (n = 2 ∨ n = w.bytes) ∧ s.inBounds (faultAddress o w s) n = false)

/-! ## The ALU -/

/-- R164: ADD at any width, V by the operands' and the result's signs and C as carry out. -/
def Obligations.AddFlags : Prop :=
  ∀ (W : Nat) (s d : BitVec W), 0 < W →
    let o := aluAdd s d
    o.res.toNat = (s.toNat + d.toNat) % 2 ^ W ∧
    (o.flags.n = true ↔ o.res.toInt < 0) ∧ (o.flags.z = true ↔ o.res = 0) ∧
    (o.flags.v = true ↔ s.msb = d.msb ∧ d.msb ≠ o.res.msb) ∧
    (o.flags.c = true ↔ 2 ^ W ≤ s.toNat + d.toNat)

/-- R165: CMP at any width is source minus destination, V by the signs, C set when no borrow occurs. -/
def Obligations.CmpFlags : Prop :=
  ∀ (W : Nat) (s d : BitVec W), 0 < W →
    let o := aluCmp s d
    (o.res.toNat : Int) = ((s.toNat : Int) - d.toNat) % 2 ^ W ∧
    (o.flags.n = true ↔ o.res.toInt < 0) ∧ (o.flags.z = true ↔ s = d) ∧
    (o.flags.v = true ↔ s.msb ≠ d.msb ∧ d.msb = o.res.msb) ∧
    (o.flags.c = true ↔ d.toNat ≤ s.toNat)

/-- R166: SUB at any width is destination minus source; C set when no borrow occurs; V by CMP's formula, though
the subtraction runs the other way. -/
def Obligations.SubFlags : Prop :=
  ∀ (W : Nat) (s d : BitVec W), 0 < W →
    let o := aluSub s d
    (o.res.toNat : Int) = ((d.toNat : Int) - s.toNat) % 2 ^ W ∧
    (o.flags.n = true ↔ o.res.toInt < 0) ∧ (o.flags.z = true ↔ o.res = 0) ∧
    (o.flags.v = true ↔ s.msb ≠ d.msb ∧ d.msb = o.res.msb) ∧
    (o.flags.c = true ↔ s.toNat ≤ d.toNat)

/-- What V comes to, the spec's own inference (42_alu_and_flags.md section 2, marked derived there): signed
overflow for ADD and CMP; for SUB, that the signs differ and the subtraction did NOT overflow. -/
def Obligations.WhatVComesTo : Prop :=
  ∀ (W : Nat) (s d : BitVec W), 0 < W →
    ((aluAdd s d).flags.v = true ↔ (s + d).toInt ≠ s.toInt + d.toInt) ∧
    ((aluCmp s d).flags.v = true ↔ (s - d).toInt ≠ s.toInt - d.toInt) ∧
    ((aluSub s d).flags.v = true ↔ s.msb ≠ d.msb ∧ (d - s).toInt = d.toInt - s.toInt)

/-- R163, R167, R168, R169: PASS, CLR, INC and COM at any width. INC sets V exactly at all ones, where the
result is zero; PASS and INC keep C. -/
def Obligations.OneOperandFlags : Prop :=
  ∀ (W : Nat) (d : BitVec W) (old : Flags), 0 < W →
    ((aluPass d old).res = d ∧ (aluPass d old).flags = ⟨d.msb, decide (d = 0), false, old.c⟩) ∧
    ((aluClr : AluOut W).res = 0 ∧ (aluClr : AluOut W).flags = ⟨false, true, false, false⟩) ∧
    ((aluInc d old).res.toNat = (d.toNat + 1) % 2 ^ W ∧ (aluInc d old).flags.n = (aluInc d old).res.msb ∧
      (aluInc d old).flags.z = decide ((aluInc d old).res = 0) ∧
      ((aluInc d old).flags.v = true ↔ d.toNat = 2 ^ W - 1) ∧ (aluInc d old).flags.c = old.c) ∧
    ((aluCom d).res.toNat = 2 ^ W - 1 - d.toNat ∧
      (aluCom d).flags = ⟨(aluCom d).res.msb, decide ((aluCom d).res = 0), false, true⟩)

/-- The sign-extension law of MOVB to a register (42_alu_and_flags.md section 2): the high byte becomes 0xFF
when the byte's sign bit is set and 0x00 otherwise, and all 16 bits of the register are replaced. -/
def Obligations.MovbSignExtends : Prop :=
  ∀ (r d : Reg) (s : State),
    let b := (s.reg r).toNat % 256
    ∃ t, exec (.movb (.registerDirect r) (.registerDirect d)) s = .next t ∧ t.status = s.status ∧
      (t.reg d).toNat = if 0x80 ≤ b then 0xFF00 + b else b

/-! ## The eight instructions

Each says, for all operands and states: the encoding; where the source's accesses are out of bounds, the fault
and its partial state; then the same of the destination; and where all are in bounds, the whole next state. -/

/-- 43_double_operand.md, MOV. The operation code is log entry 4, the state after a fault log entry 5. -/
def Obligations.MovMeaning : Prop :=
  (∀ (sm sr dm dr : BitVec 3) (x : Word), decodeWords (0b0001#4 ++ sm ++ sr ++ dm ++ dr) x =
    .ok (.mov (operandOfFields sm sr x) (operandOfFields dm dr x))) ∧
  ∀ (src dst : Operand) (s : State),
    (operandFits src .word s = false → exec (.mov src dst) s =
      .next (takeFault (.memoryAccessFault (faultAddress src .word s)) (decremented src .word s))) ∧
    (operandFits src .word s = true →
      let v := operandValue src .word s
      let s1 := (moved src .word s).setFlags ⟨v.msb, decide (v = 0), false, s.flags.c⟩
      (operandFits dst .word s1 = false → exec (.mov src dst) s =
        .next (takeFault (.memoryAccessFault (faultAddress dst .word s1)) (decremented dst .word s1))) ∧
      (operandFits dst .word s1 = true → exec (.mov src dst) s = .next (stored dst .word v s1)))

/-- 43_double_operand.md, CMP. The operation code is log entry 4, the state after a fault log entry 5. -/
def Obligations.CmpMeaning : Prop :=
  (∀ (sm sr dm dr : BitVec 3) (x : Word), decodeWords (0b0010#4 ++ sm ++ sr ++ dm ++ dr) x =
    .ok (.cmp (operandOfFields sm sr x) (operandOfFields dm dr x))) ∧
  ∀ (src dst : Operand) (s : State),
    (operandFits src .word s = false → exec (.cmp src dst) s =
      .next (takeFault (.memoryAccessFault (faultAddress src .word s)) (decremented src .word s))) ∧
    (operandFits src .word s = true →
      let v := operandValue src .word s
      let s1 := moved src .word s
      (operandFits dst .word s1 = false → exec (.cmp src dst) s =
        .next (takeFault (.memoryAccessFault (faultAddress dst .word s1)) (decremented dst .word s1))) ∧
      (operandFits dst .word s1 = true →
        let d := operandValue dst .word s1
        let res := v - d
        exec (.cmp src dst) s = .next ((moved dst .word s1).setFlags
          ⟨res.msb, decide (res = 0), decide (v.msb ≠ d.msb ∧ d.msb = res.msb), decide (d.toNat ≤ v.toNat)⟩)))

/-- R182, the state after a fault as that rule and log entry 5 have it. -/
def Obligations.AddMeaning : Prop :=
  (∀ (sm sr dm dr : BitVec 3) (x : Word), decodeWords (0b0110#4 ++ sm ++ sr ++ dm ++ dr) x =
    .ok (.add (operandOfFields sm sr x) (operandOfFields dm dr x))) ∧
  ∀ (src dst : Operand) (s : State),
    (operandFits src .word s = false → exec (.add src dst) s =
      .next (takeFault (.memoryAccessFault (faultAddress src .word s)) (decremented src .word s))) ∧
    (operandFits src .word s = true →
      let v := operandValue src .word s
      let s1 := moved src .word s
      (operandFits dst .word s1 = false → exec (.add src dst) s =
        .next (takeFault (.memoryAccessFault (faultAddress dst .word s1)) (decremented dst .word s1))) ∧
      (operandFits dst .word s1 = true →
        let d := operandValue dst .word s1
        let res := v + d
        exec (.add src dst) s = .next (stored dst .word res (s1.setFlags
          ⟨res.msb, decide (res = 0), decide (v.msb = d.msb ∧ d.msb ≠ res.msb),
            decide (65536 ≤ v.toNat + d.toNat)⟩))))

/-- 43_double_operand.md, SUB. The operation code is log entry 4, the state after a fault log entry 5. -/
def Obligations.SubMeaning : Prop :=
  (∀ (sm sr dm dr : BitVec 3) (x : Word), decodeWords (0b1110#4 ++ sm ++ sr ++ dm ++ dr) x =
    .ok (.sub (operandOfFields sm sr x) (operandOfFields dm dr x))) ∧
  ∀ (src dst : Operand) (s : State),
    (operandFits src .word s = false → exec (.sub src dst) s =
      .next (takeFault (.memoryAccessFault (faultAddress src .word s)) (decremented src .word s))) ∧
    (operandFits src .word s = true →
      let v := operandValue src .word s
      let s1 := moved src .word s
      (operandFits dst .word s1 = false → exec (.sub src dst) s =
        .next (takeFault (.memoryAccessFault (faultAddress dst .word s1)) (decremented dst .word s1))) ∧
      (operandFits dst .word s1 = true →
        let d := operandValue dst .word s1
        let res := d - v
        exec (.sub src dst) s = .next (stored dst .word res (s1.setFlags
          ⟨res.msb, decide (res = 0), decide (v.msb ≠ d.msb ∧ d.msb = res.msb), decide (v.toNat ≤ d.toNat)⟩))))

/-- 43_double_operand.md, MOVB. A destination in mode 0 makes no access and takes the sign-extended
byte; any other stores the byte. The operation code is log entry 4, the state after a fault log entry 5. -/
def Obligations.MovbMeaning : Prop :=
  (∀ (sm sr dm dr : BitVec 3) (x : Word), decodeWords (0b1001#4 ++ sm ++ sr ++ dm ++ dr) x =
    .ok (.movb (operandOfFields sm sr x) (operandOfFields dm dr x))) ∧
  ∀ (src dst : Operand) (s : State),
    (operandFits src .byte s = false → exec (.movb src dst) s =
      .next (takeFault (.memoryAccessFault (faultAddress src .byte s)) (decremented src .byte s))) ∧
    (operandFits src .byte s = true →
      let b : Byte := (operandValue src .byte s).extractLsb' 0 8
      let s1 := (moved src .byte s).setFlags ⟨b.msb, decide (b = 0), false, s.flags.c⟩
      (∀ r, dst = .registerDirect r →
        exec (.movb src dst) s = .next (s1.setReg r (b.signExtend 16))) ∧
      (directReg dst = none →
        (operandFits dst .byte s1 = false → exec (.movb src dst) s =
          .next (takeFault (.memoryAccessFault (faultAddress dst .byte s1)) (decremented dst .byte s1))) ∧
        (operandFits dst .byte s1 = true →
          exec (.movb src dst) s = .next (stored dst .byte (b.setWidth 16) s1))))

/-- R190. The flags are already written where the write faults, as that rule and log entry 5 have it. -/
def Obligations.ClrMeaning : Prop :=
  (∀ (dm dr : BitVec 3) (x : Word), decodeWords (0b0000#4 ++ 0b101000#6 ++ dm ++ dr) x =
    .ok (.clr (operandOfFields dm dr x))) ∧
  ∀ (dst : Operand) (s : State),
    let s1 := s.setFlags ⟨false, true, false, false⟩
    (operandFits dst .word s1 = false → exec (.clr dst) s =
      .next (takeFault (.memoryAccessFault (faultAddress dst .word s1)) (decremented dst .word s1))) ∧
    (operandFits dst .word s1 = true → exec (.clr dst) s = .next (stored dst .word 0x0000 s1))

/-- 44_single_operand.md, INC. The selector is log entry 4, the state after a fault log entry 5. -/
def Obligations.IncMeaning : Prop :=
  (∀ (dm dr : BitVec 3) (x : Word), decodeWords (0b0000#4 ++ 0b101010#6 ++ dm ++ dr) x =
    .ok (.inc (operandOfFields dm dr x))) ∧
  ∀ (dst : Operand) (s : State),
    (operandFits dst .word s = false → exec (.inc dst) s =
      .next (takeFault (.memoryAccessFault (faultAddress dst .word s)) (decremented dst .word s))) ∧
    (operandFits dst .word s = true →
      let d := operandValue dst .word s
      let res := d + 1
      exec (.inc dst) s = .next (stored dst .word res (s.setFlags
        ⟨res.msb, decide (res = 0), decide (d = 0xFFFF), s.flags.c⟩)))

/-- R192, the state after a fault as that rule and log entry 5 have it. -/
def Obligations.CombMeaning : Prop :=
  (∀ (dm dr : BitVec 3) (x : Word), decodeWords (0b1000#4 ++ 0b101001#6 ++ dm ++ dr) x =
    .ok (.comb (operandOfFields dm dr x))) ∧
  ∀ (dst : Operand) (s : State),
    (operandFits dst .byte s = false → exec (.comb dst) s =
      .next (takeFault (.memoryAccessFault (faultAddress dst .byte s)) (decremented dst .byte s))) ∧
    (operandFits dst .byte s = true →
      let d : Byte := (operandValue dst .byte s).extractLsb' 0 8
      let res := ~~~d
      exec (.comb dst) s = .next (stored dst .byte (res.setWidth 16) (s.setFlags
        ⟨res.msb, decide (res = 0), false, true⟩)))

/-! ## Frames -/

/-- No instruction changes a register but those its operands name in a mode with a side effect, and a mode-0
destination it writes, whether it completes or faults (10_state.md section 2). -/
def Obligations.RegisterFrame : Prop :=
  ∀ (i : Instr) (s t : State) (q : Reg), exec i s = .next t → q ∉ changedRegs i → t.reg q = s.reg q

/-- No instruction changes a byte but those of its destination, at the address computed in the state its
source leaves; CMP and a mode-0 destination change none (20_memory.md section 6). -/
def Obligations.MemoryFrame : Prop :=
  ∀ (i : Instr) (s t : State) (a : Nat), exec i s = .next t → ¬ storesTo i s a →
    t.mem.read a = s.mem.read a

/-- No instruction changes MEM_SIZE (20_memory.md section 1, 10_state.md section 6); the status stays as it was
or records a fault (10_state.md section 5, 41_instruction_cycle.md section 4), which is in a next state by log
entry 1 and keeps C by log entry 5; MOV, MOVB and INC keep C (42_alu_and_flags.md section 3). -/
def Obligations.FlagAndStatusFrame : Prop :=
  ∀ (i : Instr) (s t : State), exec i s = .next t →
    t.memSize = s.memSize ∧ (t.status = s.status ∨ ∃ a, t.status = .faulted (.memoryAccessFault a)) ∧
    match i with
    | .mov _ _ | .movb _ _ | .inc _ => t.flags.c = s.flags.c
    | .cmp _ _ | .add _ _ | .sub _ _ | .clr _ | .comb _ => True

/-- Where an instruction faults, no byte of memory has changed, and the flags have changed only if it writes
its destination without reading it (60_exceptions.md section 2; that the model keeps this state is log
entry 5). -/
def Obligations.FaultLeavesPartialState : Prop :=
  ∀ (i : Instr) (s t : State) (f : Fault), s.status = .running → exec i s = .next t → t.status = .faulted f →
    t.mem = s.mem ∧ (∃ a, f = .memoryAccessFault a) ∧
    match i with
    | .cmp _ _ | .add _ _ | .sub _ _ | .inc _ | .comb _ => t.flags = s.flags
    | .mov _ _ | .movb _ _ | .clr _ => True

/-- After an instruction completes, N and Z are not both set; after INC, V is Z; after CLR the flags are
0 1 0 0 (the spec's own inferences, 42_alu_and_flags.md section 3); after COMB V C is 0 1; after MOV and MOVB V
is 0 (its section 2, COM and PASS). -/
def Obligations.FlagConsequences : Prop :=
  ∀ (i : Instr) (s t : State), s.status = .running → exec i s = .next t → t.status = .running →
    ¬ (t.flags.n = true ∧ t.flags.z = true) ∧
    match i with
    | .inc _ => t.flags.v = t.flags.z
    | .clr _ => t.flags = ⟨false, true, false, false⟩
    | .comb _ => t.flags.v = false ∧ t.flags.c = true
    | .mov _ _ | .movb _ _ => t.flags.v = false
    | .cmp _ _ | .add _ _ | .sub _ _ => True

/-- The flags influence no register, no memory byte and no control transfer. Two machines that differ
only in their flags step alike, but for their flags (10_state.md section 4). -/
def Obligations.FlagsInfluenceNothing : Prop :=
  ∀ (s t : State) (fl : Flags), step s = .next t →
    ∃ fm, step (s.setFlags fl) = .next (t.setFlags fm)

/-! ## The host interface -/

/-- A step asked for by the host: refused without effect on a FAULTED machine; on a RUNNING one, Done with the
completed state, or the fault with the partial state (50_interfaces.md, the step transaction; log entry 1). -/
def Obligations.HostStepAnswers : Prop :=
  ∀ s : State,
    (∀ f, s.status = .faulted f → transact .step s = (.refused, s)) ∧
    (s.status = .running → ∃ t, step s = .next t ∧
      ((t.status = .running ∧ transact .step s = (.done, t)) ∨
        ∃ f, t.status = .faulted f ∧ transact .step s = (.fault f, t)))

/-- The raw accessors: what is written is read, the program counter is register 7, and an index out of range
is refused without effect (50_interfaces.md, debug port). That the host has the flags one by one is the spec's
decision D22, and that an index out of range is refused, a register's or a byte's, its decision D23
(92_eei_decisions.md); that all this holds of a FAULTED machine too is log entry 9. -/
def Obligations.HostAccessors : Prop :=
  ∀ s : State, s.inv = true →
    (∀ (i : Nat) (v : Word), i < 8 →
      ∃ t, transact (.setReg i v) s = (.done, t) ∧ transact (.getReg i) t = (.word v, t)) ∧
    (∀ (i : Nat) (v : Word), 8 ≤ i →
      transact (.setReg i v) s = (.refused, s) ∧ transact (.getReg i) s = (.refused, s)) ∧
    (∀ v : Word, ∃ t, transact (.setPc v) s = (.done, t) ∧ transact (.getReg 7) t = (.word v, t)) ∧
    (∀ (a : Nat) (v : Byte), a < s.memSize.val →
      ∃ t, transact (.setMem a v) s = (.done, t) ∧ transact (.getMem a) t = (.byte v, t)) ∧
    (∀ (a : Nat) (v : Byte), s.memSize.val ≤ a →
      transact (.setMem a v) s = (.refused, s) ∧ transact (.getMem a) s = (.refused, s)) ∧
    (∀ (f g : FlagName) (b : Bool), ∃ t, transact (.setFlag f b) s = (.done, t) ∧
      transact (.getFlag g) t = (.flag (if g = f then b else s.flags.get g), t))
end

