-- ==== Sys2Proof/Laws/Bits.lean ====
section
/-! SUPPORT. The byte halves of a word and the word made of two bytes undo each other. -/

namespace Sys2Proof.Machine

@[simp] theorem wordOf_halves (v : Word) : wordOf (hiByte v) (loByte v) = v := by
  refine BitVec.eq_of_getLsbD_eq fun i hi => ?_
  simp only [wordOf, hiByte, loByte, BitVec.getLsbD_append, BitVec.getLsbD_extractLsb']
  by_cases h : i < 8
  · simp [h]
  · simp [h, show i - 8 < 8 by omega, show 8 + (i - 8) = i by omega]

@[simp] theorem loByte_wordOf (hi lo : Byte) : loByte (wordOf hi lo) = lo := by
  refine BitVec.eq_of_getLsbD_eq fun i h => ?_
  simp only [wordOf, loByte, BitVec.getLsbD_append, BitVec.getLsbD_extractLsb']
  simp [h]

@[simp] theorem hiByte_wordOf (hi lo : Byte) : hiByte (wordOf hi lo) = hi := by
  refine BitVec.eq_of_getLsbD_eq fun i h => ?_
  simp only [wordOf, hiByte, BitVec.getLsbD_append, BitVec.getLsbD_extractLsb']
  simp [h]

@[simp] theorem loByte_zeroExtend (b : Byte) : loByte (zeroExtend b) = b := by
  refine BitVec.eq_of_getLsbD_eq fun i h => ?_
  simp [loByte, zeroExtend, BitVec.getLsbD_setWidth, h]
  omega

end Sys2Proof.Machine
end

