-- ==== Sys2Proof/Laws/Memory.lean ====
section
/-! SUPPORT. The laws of memory as an array of bytes: read after write, and the canonical form. -/

namespace Sys2Proof.Machine

/-! ## The canonical form -/

/-- What the canonical form says of a list with a first cell. -/
theorem Memory.wf_cons (c : Host.Cell) (m : Memory) :
    Memory.wf (c :: m) = true ↔
      c.2 ≠ Config.unwrittenByte ∧ (∀ d ∈ m, c.1 < d.1) ∧ Memory.wf m = true := by
  induction m generalizing c with
  | nil => simp [Memory.wf]
  | cons d m ih =>
    simp only [Memory.wf, Bool.and_eq_true, bne_iff_ne, ne_eq, decide_eq_true_eq, List.mem_cons,
      forall_eq_or_imp]
    constructor
    · rintro ⟨⟨h0, hlt⟩, hd⟩
      exact ⟨h0, ⟨hlt, fun e he => hlt.trans (((ih d).1 hd).2.1 e he)⟩, hd⟩
    · rintro ⟨h0, ⟨hlt, -⟩, hd⟩
      exact ⟨⟨h0, hlt⟩, hd⟩

/-- A write lists no address but those listed before and its own. -/
theorem Memory.mem_write {m : Memory} {a : Nat} {v : Byte} {c : Host.Cell} (h : c ∈ m.write a v) :
    c ∈ m ∨ (c.1 = a ∧ c.2 = v ∧ v ≠ Config.unwrittenByte) := by
  induction m with
  | nil =>
    unfold Memory.write at h
    split at h
    · exact .inl h
    · simp only [List.mem_singleton] at h; subst h; exact .inr ⟨rfl, rfl, ‹_›⟩
  | cons d m ih =>
    unfold Memory.write at h
    split at h
    · split at h
      · exact .inl h
      · rcases List.mem_cons.1 h with rfl | h
        · exact .inr ⟨rfl, rfl, ‹_›⟩
        · exact .inl h
    · split at h
      · split at h
        · exact .inl (List.mem_cons_of_mem _ h)
        · rcases List.mem_cons.1 h with rfl | h
          · exact .inr ⟨rfl, rfl, ‹_›⟩
          · exact .inl (List.mem_cons_of_mem _ h)
      · rcases List.mem_cons.1 h with rfl | h
        · exact .inl (List.mem_cons_self ..)
        · exact (ih h).imp (List.mem_cons_of_mem _) id

/-- A write keeps the canonical form. -/
theorem Memory.write_wf {m : Memory} (h : m.wf = true) (a : Nat) (v : Byte) : (m.write a v).wf = true := by
  induction m with
  | nil => unfold Memory.write; split <;> simp_all [Memory.wf]
  | cons d m ih =>
    obtain ⟨h0, hlt, hm⟩ := (Memory.wf_cons d m).1 h
    unfold Memory.write
    split
    · split
      · exact h
      · refine (Memory.wf_cons _ _).2 ⟨‹_›, ?_, h⟩
        intro e he
        rcases List.mem_cons.1 he with rfl | he
        · assumption
        · exact lt_trans ‹_› (hlt e he)
    · split
      · split
        · exact hm
        · refine (Memory.wf_cons _ _).2 ⟨‹_›, ?_, hm⟩
          rename_i hk _
          subst hk
          exact hlt
      · refine (Memory.wf_cons _ _).2 ⟨h0, ?_, ih hm⟩
        intro e he
        rcases Memory.mem_write he with he | ⟨he, -⟩
        · exact hlt e he
        · simp only at *; omega

/-- A word write keeps the canonical form. -/
theorem Memory.writeWord_wf {m : Memory} (h : m.wf = true) (a : Nat) (v : Word) :
    (m.writeWord a v).wf = true := Memory.write_wf (Memory.write_wf h _ _) _ _

/-! ## Read after write -/

/-- An address below every listed one reads as the reset contents. -/
theorem Memory.read_below {m : Memory} {a : Nat} (h : ∀ c ∈ m, a < c.1) :
    m.read a = Config.unwrittenByte := by
  induction m with
  | nil => rfl
  | cons c m ih =>
    obtain ⟨k, b⟩ := c
    have hk : a < k := h (k, b) (List.mem_cons_self ..)
    simp only [Memory.read, if_neg (show ¬ k = a by omega)]
    exact ih fun d hd => h d (List.mem_cons_of_mem _ hd)

/-- A write leaves every other address alone, whatever the list. -/
theorem Memory.read_write_ne (m : Memory) {a b : Nat} (v : Byte) (h : b ≠ a) :
    (m.write a v).read b = m.read b := by
  induction m with
  | nil => unfold Memory.write; split <;> simp [Memory.read, h.symm]
  | cons c m ih =>
    obtain ⟨k, x⟩ := c
    unfold Memory.write
    split
    · split <;> simp [Memory.read, h.symm]
    · split
      · rename_i hk
        subst hk
        split <;> simp [Memory.read, h.symm]
      · simp [Memory.read, ih]

/-- A read after a write to the same address gives the value written. -/
theorem Memory.read_write_same {m : Memory} (hm : m.wf = true) (a : Nat) (v : Byte) :
    (m.write a v).read a = v := by
  induction m with
  | nil => unfold Memory.write; split <;> simp_all [Memory.read]
  | cons c m ih =>
    obtain ⟨k, x⟩ := c
    obtain ⟨h0, hlt, hm'⟩ := (Memory.wf_cons _ m).1 hm
    unfold Memory.write
    split
    · rename_i hak
      split
      · rename_i hv
        rw [hv]
        refine Memory.read_below fun d hd => ?_
        rcases List.mem_cons.1 hd with rfl | hd
        · exact hak
        · exact hak.trans (hlt d hd)
      · simp [Memory.read]
    · split
      · rename_i hk
        subst hk
        split
        · rename_i hv
          rw [hv]
          exact Memory.read_below hlt
        · simp [Memory.read]
      · rename_i hk
        simp [Memory.read, Ne.symm hk, ih hm']

/-- A word write leaves every other address alone. -/
theorem Memory.read_writeWord_ne (m : Memory) {a b : Nat} (v : Word) (h0 : b ≠ a) (h1 : b ≠ a + 1) :
    (m.writeWord a v).read b = m.read b := by
  rw [Memory.writeWord, Memory.read_write_ne _ _ h1, Memory.read_write_ne _ _ h0]

/-- The low byte of a written word stands at its address (R60). -/
theorem Memory.read_writeWord_lo {m : Memory} (hm : m.wf = true) (a : Nat) (v : Word) :
    (m.writeWord a v).read a = loByte v := by
  rw [Memory.writeWord, Memory.read_write_ne _ _ (by omega), Memory.read_write_same hm]

/-- The high byte of a written word stands one address above (R60). -/
theorem Memory.read_writeWord_hi {m : Memory} (hm : m.wf = true) (a : Nat) (v : Word) :
    (m.writeWord a v).read (a + 1) = hiByte v := by
  rw [Memory.writeWord, Memory.read_write_same (Memory.write_wf hm _ _)]

/-- Equal memories are equal data: canonical lists that read alike everywhere are the same list. -/
theorem Memory.ext {m n : Memory} (hm : m.wf = true) (hn : n.wf = true) (h : ∀ a, m.read a = n.read a) :
    m = n := by
  induction m generalizing n with
  | nil =>
    cases n with
    | nil => rfl
    | cons d n =>
      have := h d.1
      have h0 := ((Memory.wf_cons d n).1 hn).1
      simp [Memory.read] at this
      exact absurd this.symm h0
  | cons c m ih =>
    obtain ⟨k, x⟩ := c
    obtain ⟨hx, hlt, hm'⟩ := (Memory.wf_cons _ m).1 hm
    cases n with
    | nil =>
      have := h k
      simp [Memory.read] at this
      exact absurd this hx
    | cons d n =>
      obtain ⟨l, y⟩ := d
      obtain ⟨hy, hlt', hn'⟩ := (Memory.wf_cons _ n).1 hn
      have hkl : k = l := by
        rcases lt_trichotomy k l with hlk | hlk | hlk
        · have := h k
          rw [Memory.read_below (m := (l, y) :: n) (a := k)] at this
          · simp [Memory.read] at this
            exact absurd this hx
          · intro e he
            rcases List.mem_cons.1 he with rfl | he
            · exact hlk
            · exact lt_trans hlk (hlt' e he)
        · exact hlk
        · have := h l
          rw [Memory.read_below (m := (k, x) :: m) (a := l)] at this
          · simp [Memory.read] at this
            exact absurd this.symm hy
          · intro e he
            rcases List.mem_cons.1 he with rfl | he
            · exact hlk
            · exact lt_trans hlk (hlt e he)
      subst hkl
      have hxy : x = y := by simpa [Memory.read] using h k
      subst hxy
      refine congrArg _ (ih hm' hn' fun a => ?_)
      have ha := h a
      by_cases hka : k = a
      · subst hka
        rw [Memory.read_below hlt, Memory.read_below hlt']
      · simpa [Memory.read, hka] using ha

end Sys2Proof.Machine
end

