-- ==== Sys2Proof/Laws/State.lean ====
section
/-! SUPPORT. One lemma per field per update of State, so that no later proof unfolds a record update. -/

namespace Sys2Proof.Machine

variable (s : State) (r q : Reg) (v : Word) (f : Fault)

@[simp] theorem reg_setReg_same : (s.setReg r v).reg r = v := by simp [State.reg, State.setReg]

@[simp] theorem reg_setReg_ne (h : q ≠ r) : (s.setReg r v).reg q = s.reg q := by
  have : r.val ≠ q.val := fun e => h (Fin.ext e.symm)
  simp [State.reg, State.setReg, this]

theorem reg_setReg : (s.setReg r v).reg q = if q = r then v else s.reg q := by
  by_cases h : q = r
  · subst h; simp
  · simp [h]

@[simp] theorem setReg_setReg (u : Word) : (s.setReg r u).setReg r v = s.setReg r v := by
  simp [State.setReg]

@[simp] theorem setReg_reg : s.setReg r (s.reg r) = s := by
  simp [State.setReg, State.reg]

@[simp] theorem setReg_flags : (s.setReg r v).flags = s.flags := rfl
@[simp] theorem setReg_mem : (s.setReg r v).mem = s.mem := rfl
@[simp] theorem setReg_memSize : (s.setReg r v).memSize = s.memSize := rfl
@[simp] theorem setReg_status : (s.setReg r v).status = s.status := rfl
@[simp] theorem setReg_inBounds (a : Word) (n : Nat) : (s.setReg r v).inBounds a n = s.inBounds a n := rfl

variable (fl : Flags) (m : Memory) (a : Word) (n : Nat) (w : Width)

@[simp] theorem setFlags_flags : (s.setFlags fl).flags = fl := rfl
@[simp] theorem setFlags_reg : (s.setFlags fl).reg r = s.reg r := rfl
@[simp] theorem setFlags_mem : (s.setFlags fl).mem = s.mem := rfl
@[simp] theorem setFlags_memSize : (s.setFlags fl).memSize = s.memSize := rfl
@[simp] theorem setFlags_status : (s.setFlags fl).status = s.status := rfl
@[simp] theorem setFlags_inBounds : (s.setFlags fl).inBounds a n = s.inBounds a n := rfl
@[simp] theorem setFlags_setFlags (fm : Flags) : (s.setFlags fl).setFlags fm = s.setFlags fm := rfl
@[simp] theorem setFlags_setReg : (s.setFlags fl).setReg r v = (s.setReg r v).setFlags fl := rfl

@[simp] theorem setMem_mem : (s.setMem m).mem = m := rfl
@[simp] theorem setMem_reg : (s.setMem m).reg r = s.reg r := rfl
@[simp] theorem setMem_flags : (s.setMem m).flags = s.flags := rfl
@[simp] theorem setMem_memSize : (s.setMem m).memSize = s.memSize := rfl
@[simp] theorem setMem_status : (s.setMem m).status = s.status := rfl
@[simp] theorem setMem_inBounds : (s.setMem m).inBounds a n = s.inBounds a n := rfl
@[simp] theorem setMem_setReg : (s.setMem m).setReg r v = (s.setReg r v).setMem m := rfl
@[simp] theorem setFlags_setMem : (s.setFlags fl).setMem m = (s.setMem m).setFlags fl := rfl

@[simp] theorem takeFault_regs : (takeFault f s).regs = s.regs := rfl
@[simp] theorem takeFault_reg : (takeFault f s).reg r = s.reg r := rfl
@[simp] theorem takeFault_flags : (takeFault f s).flags = s.flags := rfl
@[simp] theorem takeFault_mem : (takeFault f s).mem = s.mem := rfl
@[simp] theorem takeFault_memSize : (takeFault f s).memSize = s.memSize := rfl
@[simp] theorem takeFault_status : (takeFault f s).status = .faulted f := rfl

/-- The byte port and the word port write one register and nothing else. -/
theorem portWrite_eq : ∃ u, s.portWrite w r v = s.setReg r u := by
  cases w
  · exact ⟨_, rfl⟩
  · exact ⟨_, rfl⟩

@[simp] theorem portWrite_flags : (s.portWrite w r v).flags = s.flags := by cases w <;> rfl
@[simp] theorem portWrite_mem : (s.portWrite w r v).mem = s.mem := by cases w <;> rfl
@[simp] theorem portWrite_memSize : (s.portWrite w r v).memSize = s.memSize := by cases w <;> rfl
@[simp] theorem portWrite_status : (s.portWrite w r v).status = s.status := by cases w <;> rfl
@[simp] theorem setFlags_portWrite : (s.setFlags fl).portWrite w r v = (s.portWrite w r v).setFlags fl := by
  cases w <;> rfl
@[simp] theorem setFlags_portRead : (s.setFlags fl).portRead w r = s.portRead w r := by cases w <;> rfl

end Sys2Proof.Machine
end

