-- ==== Sys2Proof/Laws/Sem.lean ====
section
/-! SUPPORT. How a piece of a step runs: one equation per way of putting pieces together, and one lemma per
primitive that says everything it can do. -/

namespace Sys2Proof.Machine

variable {α β : Type} (s : State)

/-- Sequencing: the second piece runs on the state the first leaves; a fault ends both. -/
theorem sem_bind (x : Sem α) (f : α → Sem β) :
    (x >>= f) s = match x s with
      | .ok v t => f v t
      | .error e t => .error e t := by
  change EStateM.bind x f s = _
  unfold EStateM.bind
  cases x s <;> rfl

theorem sem_bind_ok {x : Sem α} {f : α → Sem β} {s t : State} {v : α} (h : x s = .ok v t) :
    (x >>= f) s = f v t := by rw [sem_bind, h]

theorem sem_bind_error {x : Sem α} {f : α → Sem β} {s t : State} {e : Fault} (h : x s = .error e t) :
    (x >>= f) s = .error e t := by rw [sem_bind, h]

@[simp] theorem sem_pure (v : α) : (pure v : Sem α) s = .ok v s := rfl
@[simp] theorem sem_get : (get : Sem State) s = .ok s s := rfl
@[simp] theorem sem_raise (f : Fault) : (raise f : Sem α) s = .error f s := rfl
@[simp] theorem sem_getReg (r : Reg) : getReg r s = .ok (s.reg r) s := rfl
@[simp] theorem sem_putReg (r : Reg) (v : Word) : putReg r v s = .ok () (s.setReg r v) := rfl
@[simp] theorem sem_getFlags : getFlags s = .ok s.flags s := rfl
@[simp] theorem sem_putFlags (fl : Flags) : putFlags fl s = .ok () (s.setFlags fl) := rfl

theorem outcomeOf_ok {body : Sem Unit} {s t : State} (h : body s = .ok () t) : outcomeOf body s = .next t := by
  simp [outcomeOf, h]

theorem outcomeOf_error {body : Sem Unit} {s t : State} {f : Fault} (h : body s = .error f t) :
    outcomeOf body s = .next (takeFault f t) := by simp [outcomeOf, h]

/-- Everything a word read can do: give the little-endian word, or raise at its own address; the state is
kept either way. -/
theorem memReadWord_spec (a : Word) :
    memReadWord a s =
      if s.inBounds a 2 then .ok (s.mem.readWord a.toNat) s else .error (.memoryAccessFault a) s := rfl

/-- Everything a read of either width can do. -/
theorem memRead_spec (w : Width) (a : Word) :
    memRead w a s =
      if s.inBounds a w.bytes then
        .ok (match w with | .word => s.mem.readWord a.toNat | .byte => zeroExtend (s.mem.read a.toNat)) s
      else .error (.memoryAccessFault a) s := by
  cases w
  · by_cases h : s.inBounds a 1 <;> simp [memRead, Width.bytes, sem_bind, memReadByte, h]
  · rfl

/-- Everything a write of either width can do: store the width's bytes, or raise at its own address and
store nothing. -/
theorem memWrite_spec (w : Width) (a v : Word) :
    memWrite w a v s =
      if s.inBounds a w.bytes then
        .ok () (s.setMem (match w with
          | .word => s.mem.writeWord a.toNat v
          | .byte => s.mem.write a.toNat (loByte v)))
      else .error (.memoryAccessFault a) s := by
  cases w <;> rfl

end Sys2Proof.Machine
end

