-- ==== Sys2Proof/Laws/Operands.lean ====
section
/-! SUPPORT. What the operand resolver can do, said once per operation: an operand whose accesses are all in
bounds, and one that faults. Callers cite these and never unfold the resolver. -/

namespace Sys2Proof.Machine

variable (o : Operand) (w : Width) (s : State) (r q : Reg) (fl : Flags)

/-! ## What a register change keeps -/

@[simp] theorem decremented_flags : (decremented o w s).flags = s.flags := by cases o <;> rfl
@[simp] theorem decremented_mem : (decremented o w s).mem = s.mem := by cases o <;> rfl
@[simp] theorem decremented_memSize : (decremented o w s).memSize = s.memSize := by cases o <;> rfl
@[simp] theorem decremented_status : (decremented o w s).status = s.status := by cases o <;> rfl
@[simp] theorem decremented_inBounds (a : Word) (n : Nat) :
    (decremented o w s).inBounds a n = s.inBounds a n := by cases o <;> rfl
@[simp] theorem incremented_flags : (incremented o w s).flags = s.flags := by cases o <;> rfl
@[simp] theorem incremented_mem : (incremented o w s).mem = s.mem := by cases o <;> rfl
@[simp] theorem incremented_memSize : (incremented o w s).memSize = s.memSize := by cases o <;> rfl
@[simp] theorem incremented_status : (incremented o w s).status = s.status := by cases o <;> rfl
@[simp] theorem moved_flags : (moved o w s).flags = s.flags := by simp [moved]
@[simp] theorem moved_mem : (moved o w s).mem = s.mem := by simp [moved]
@[simp] theorem moved_memSize : (moved o w s).memSize = s.memSize := by simp [moved]
@[simp] theorem moved_status : (moved o w s).status = s.status := by simp [moved]
@[simp] theorem moved_inBounds (a : Word) (n : Nat) : (moved o w s).inBounds a n = s.inBounds a n := by
  simp [State.inBounds]

/-! ## Flags take no part in resolving an operand (R110) -/

@[simp] theorem decremented_setFlags :
    decremented o w (s.setFlags fl) = (decremented o w s).setFlags fl := by cases o <;> rfl
@[simp] theorem incremented_setFlags :
    incremented o w (s.setFlags fl) = (incremented o w s).setFlags fl := by cases o <;> rfl
@[simp] theorem moved_setFlags : moved o w (s.setFlags fl) = (moved o w s).setFlags fl := by
  simp [moved]
@[simp] theorem incremented_setMem (m : Memory) :
    incremented o w (s.setMem m) = (incremented o w s).setMem m := by cases o <;> rfl
@[simp] theorem pointerAddress_setFlags : pointerAddress o (s.setFlags fl) = pointerAddress o s := by
  cases o <;> rfl
@[simp] theorem locationOf_setFlags (p : Word) : locationOf o p (s.setFlags fl) = locationOf o p s := by
  cases o <;> rfl
@[simp] theorem pointerWord_setFlags : pointerWord o (s.setFlags fl) = pointerWord o s := by
  simp [pointerWord]
@[simp] theorem operandLocation_setFlags :
    operandLocation o w (s.setFlags fl) = operandLocation o w s := by simp [operandLocation]
@[simp] theorem pointerFits_setFlags : pointerFits o w (s.setFlags fl) = pointerFits o w s := by
  simp [pointerFits]
@[simp] theorem operandFits_setFlags : operandFits o w (s.setFlags fl) = operandFits o w s := by
  simp [operandFits, locationFits]
@[simp] theorem operandValue_setFlags : operandValue o w (s.setFlags fl) = operandValue o w s := by
  simp [operandValue]
@[simp] theorem faultAddress_setFlags : faultAddress o w (s.setFlags fl) = faultAddress o w s := by
  rw [faultAddress, pointerFits_setFlags, operandLocation_setFlags, decremented_setFlags, pointerAddress_setFlags]
  rfl

/-- Only a mode that has side effects changes a register, and only its own (R28). -/
theorem reg_decremented (h : sideEffectReg o ≠ some q) : (decremented o w s).reg q = s.reg q := by
  cases o <;> simp_all [decremented, sideEffectReg, eq_comm]

theorem reg_incremented (h : sideEffectReg o ≠ some q) : (incremented o w s).reg q = s.reg q := by
  cases o <;> simp_all [incremented, sideEffectReg, eq_comm]

theorem reg_moved (h : sideEffectReg o ≠ some q) : (moved o w s).reg q = s.reg q := by
  rw [moved, reg_incremented _ _ _ _ h, reg_decremented _ _ _ _ h]

/-- An operand lies in a register exactly in mode 0, which has no side effect. -/
theorem operandLocation_register {r : Reg} (h : operandLocation o w s = .register r) :
    o = .registerDirect r := by
  cases o <;> simp_all [operandLocation, locationOf]

@[simp] theorem operandLocation_direct : operandLocation (.registerDirect r) w s = .register r := rfl
@[simp] theorem operandFits_direct : operandFits (.registerDirect r) w s = true := rfl
@[simp] theorem moved_direct : moved (.registerDirect r) w s = s := rfl

/-! ## The resolver -/

/-- Finding an operand's location: its pointer word, if it has one, is read where it lies. -/
theorem locate_spec :
    locate o s =
      if (pointerAddress o s).all (fun a => s.inBounds a 2) then .ok (locationOf o (pointerWord o s) s) s
      else .error (.memoryAccessFault ((pointerAddress o s).getD 0)) s := by
  simp only [locate, sem_bind, sem_get, pointerWord]
  cases h : pointerAddress o s with
  | none => simp
  | some a =>
    by_cases hb : s.inBounds a 2 <;> simp [sem_bind, memReadWord_spec, hb]

/-- Everything a read can do once the register is decremented. -/
theorem locateLoad_spec :
    (locate o >>= loadFrom w) (decremented o w s) =
      if operandFits o w s then .ok (operandValue o w s) (decremented o w s)
      else .error (.memoryAccessFault (faultAddress o w s)) (decremented o w s) := by
  have hp : pointerFits o w s =
      (pointerAddress o (decremented o w s)).all (fun a => (decremented o w s).inBounds a 2) := by
    simp [pointerFits]
  rw [sem_bind, locate_spec, ← hp, operandFits]
  by_cases h : pointerFits o w s
  · rw [if_pos h, h]
    rw [← operandLocation]
    cases hl : operandLocation o w s with
    | register r =>
      obtain rfl := operandLocation_register o w s hl
      rfl
    | memory a =>
      simp only [Bool.true_and, locationFits, operandValue, faultAddress, h, if_true, hl, loadFrom, memRead_spec,
        decremented_inBounds]
      split
      · cases w <;> simp
      · rfl
  · rw [if_neg (by simpa using h)]
    simp only [Bool.not_eq_true] at h
    simp [h, faultAddress]

/-- Everything a write can do once the register is decremented; the flags may have been updated since. -/
theorem locateStore_spec (v : Word) :
    (locate o >>= storeTo w v) (decremented o w s) =
      if operandFits o w s then .ok () (match operandLocation o w s, w with
        | .register r, w => s.portWrite w r v
        | .memory a, .word => (decremented o w s).setMem (s.mem.writeWord a.toNat v)
        | .memory a, .byte => (decremented o w s).setMem (s.mem.write a.toNat (loByte v)))
      else .error (.memoryAccessFault (faultAddress o w s)) (decremented o w s) := by
  have hp : pointerFits o w s =
      (pointerAddress o (decremented o w s)).all (fun a => (decremented o w s).inBounds a 2) := by
    simp [pointerFits]
  rw [sem_bind, locate_spec, ← hp, operandFits]
  by_cases h : pointerFits o w s
  · rw [if_pos h, h]
    rw [← operandLocation]
    cases hl : operandLocation o w s with
    | register r =>
      obtain rfl := operandLocation_register o w s hl
      rfl
    | memory a =>
      simp only [Bool.true_and, locationFits, faultAddress, h, if_true, hl, storeTo, memWrite_spec,
        decremented_inBounds]
      split
      · cases w <;> simp
      · rfl
  · rw [if_neg (by simpa using h)]
    simp only [Bool.not_eq_true] at h
    simp [h, faultAddress]

/-- A standalone read of an operand that fits: its value, and the one register change. -/
theorem readOperand_standalone (h : operandFits o w s = true) :
    readOperand o w .standalone s = .ok (operandValue o w s) (moved o w s) := by
  have hl := locateLoad_spec o w s
  rw [if_pos h] at hl
  rw [readOperand, sem_bind, preDecrement]
  simp only
  rw [← bind_assoc, sem_bind_ok hl]
  rfl

/-- The first half of a pair: its value, and of the register change only the decrement. -/
theorem readOperand_rmwFirst (h : operandFits o w s = true) :
    readOperand o w .rmwFirst s = .ok (operandValue o w s) (decremented o w s) := by
  have hl := locateLoad_spec o w s
  rw [if_pos h] at hl
  rw [readOperand, sem_bind, preDecrement]
  simp only
  rw [← bind_assoc, sem_bind_ok hl]
  rfl

/-- A read of an operand that does not fit, in either phase: the fault at the first access out of bounds,
the decrement done and the increment not (R127). -/
theorem readOperand_fault (ph : ReadPhase) (h : operandFits o w s = false) :
    readOperand o w ph s = .error (.memoryAccessFault (faultAddress o w s)) (decremented o w s) := by
  have hl := locateLoad_spec o w s
  rw [if_neg (by simp [h])] at hl
  rw [readOperand, sem_bind, preDecrement]
  simp only
  rw [← bind_assoc, sem_bind_error hl]

/-- A standalone write of an operand that fits. -/
theorem writeOperand_standalone (v : Word) (h : operandFits o w s = true) :
    writeOperand o w v .standalone s = .ok () (stored o w v s) := by
  have hl := locateStore_spec o w s v
  rw [if_pos h] at hl
  rw [writeOperand, sem_bind, preDecrement]
  simp only
  rw [← bind_assoc, sem_bind_ok hl]
  simp only [postIncrement, stored, moved]
  cases hloc : operandLocation o w s with
  | register r =>
    obtain rfl := operandLocation_register o w s hloc
    rfl
  | memory a => cases w <;> simp

/-- The second half of a pair, run where the first half left off, the flags updated since: it cannot fault,
and with the first half makes one write and one register change (R124, R126). -/
theorem writeOperand_rmwSecond (v : Word) (h : operandFits o w s = true) :
    writeOperand o w v .rmwSecond ((decremented o w s).setFlags fl) = .ok () (stored o w v (s.setFlags fl)) := by
  have hl := locateStore_spec o w (s.setFlags fl) v
  rw [if_pos (by simpa using h), decremented_setFlags] at hl
  rw [show writeOperand o w v .rmwSecond = (locate o >>= storeTo w v) >>= fun _ => postIncrement o w by
    simp [writeOperand], sem_bind_ok hl]
  simp only [postIncrement, stored, moved]
  cases hloc : operandLocation o w (s.setFlags fl) with
  | register r =>
    obtain rfl := operandLocation_register o w _ hloc
    rfl
  | memory a => cases w <;> simp

/-- The second half of a pair run by itself, where the operand does not fit: the fault, nothing changed. -/
theorem writeOperand_rmwSecond_fault (v : Word) (h : operandFits o w s = false) :
    writeOperand o w v .rmwSecond (decremented o w s) =
      .error (.memoryAccessFault (faultAddress o w s)) (decremented o w s) := by
  have hl := locateStore_spec o w s v
  rw [if_neg (by simp [h])] at hl
  rw [show writeOperand o w v .rmwSecond = (locate o >>= storeTo w v) >>= fun _ => postIncrement o w by
    simp [writeOperand], sem_bind_error hl]

/-- Every state is one that a decrement leaves, so the lemmas on the second half of a pair cover all states. -/
theorem exists_decremented : ∃ u, decremented o w u = s := by
  cases o with
  | autodecrement r => exact ⟨s.setReg r (s.reg r + w.step), by simp [decremented]⟩
  | deferredAutodecrement r =>
    refine ⟨s.setReg r (s.reg r + 2), ?_⟩
    rw [decremented, reg_setReg_same, setReg_setReg, BitVec.add_sub_cancel, setReg_reg]
  | _ => exact ⟨s, rfl⟩

/-- A standalone write of an operand that does not fit: the fault, the decrement done, nothing stored. -/
theorem writeOperand_fault (v : Word) (h : operandFits o w s = false) :
    writeOperand o w v .standalone s =
      .error (.memoryAccessFault (faultAddress o w s)) (decremented o w s) := by
  have hl := locateStore_spec o w s v
  rw [if_neg (by simp [h])] at hl
  rw [writeOperand, sem_bind, preDecrement]
  simp only
  rw [← bind_assoc, sem_bind_error hl]

/-! ## What a write keeps -/

variable (v : Word)

@[simp] theorem stored_direct : stored (.registerDirect r) w v s = s.portWrite w r v := by cases w <;> rfl
@[simp] theorem stored_flags : (stored o w v s).flags = s.flags := by
  unfold stored; split <;> simp
@[simp] theorem stored_memSize : (stored o w v s).memSize = s.memSize := by
  unfold stored; split <;> simp
@[simp] theorem stored_status : (stored o w v s).status = s.status := by
  unfold stored; split <;> simp
@[simp] theorem stored_setFlags : stored o w v (s.setFlags fl) = (stored o w v s).setFlags fl := by
  simp only [stored, operandLocation_setFlags]
  split <;> simp

/-- A write of an operand changes no register but its mode's own, or in mode 0 the destination. -/
theorem reg_stored (h : sideEffectReg o ≠ some q) (hd : directReg o ≠ some q) :
    (stored o w v s).reg q = s.reg q := by
  cases hloc : operandLocation o w s with
  | register r =>
    obtain rfl := operandLocation_register o w s hloc
    obtain ⟨u, hu⟩ := portWrite_eq s r v w
    rw [stored_direct, hu]
    exact reg_setReg_ne s r q u fun e => hd (by simp [directReg, e])
  | memory a => cases w <;> simp [stored, hloc, reg_moved o _ s q h]

/-- A write of an operand changes no byte outside its span. -/
theorem read_stored {a : Nat} (h : ¬ spans o w s a) : (stored o w v s).mem.read a = s.mem.read a := by
  unfold stored
  unfold spans at h
  split <;> simp_all only [portWrite_mem, setMem_mem, Width.bytes]
  · exact Memory.read_writeWord_ne _ _ (by omega) (by omega)
  · exact Memory.read_write_ne _ _ (by omega)

end Sys2Proof.Machine
end

