-- ==== Sys2Proof/Laws/Exec.lean ====
section
/-! SUPPORT. What executing an instruction can do, said once: it stops at its source, stops at its destination,
or completes (43_double_operand.md R185). Claims over all instructions split on `exec_cases`. -/

namespace Sys2Proof.Machine

/-- The source operand of a two-operand instruction. -/
def srcOf : Instr → Option Operand
  | .mov src _ | .cmp src _ | .add src _ | .sub src _ | .movb src _ => some src
  | .clr _ | .inc _ | .comb _ => none

/-- The destination operand. -/
def dstOf : Instr → Operand
  | .mov _ dst | .cmp _ dst | .add _ dst | .sub _ dst | .movb _ dst | .clr dst | .inc dst | .comb dst => dst

/-- The operand width (R63). -/
def widthOf : Instr → Width
  | .mov _ _ | .cmp _ _ | .add _ _ | .sub _ _ | .clr _ | .inc _ => .word
  | .movb _ _ | .comb _ => .byte

/-- The state in which the destination is resolved, but for the flags: the source's register change done. -/
def afterSource (i : Instr) (s : State) : State :=
  match srcOf i with
  | some src => moved src (widthOf i) s
  | none => s

/-- What the flags an instruction writes have to do with the old ones and with each other (R173, R174). -/
def flagFacts (i : Instr) (old fl : Flags) : Prop :=
  ¬ (fl.n = true ∧ fl.z = true) ∧
    match i with
    | .mov _ _ | .movb _ _ => fl.v = false ∧ fl.c = old.c
    | .inc _ => fl.v = fl.z ∧ fl.c = old.c
    | .clr _ => fl = ⟨false, true, false, false⟩
    | .comb _ => fl.v = false ∧ fl.c = true
    | .cmp _ _ | .add _ _ | .sub _ _ => True

/-- The flags where the destination faults: the old ones, but for an instruction that writes its destination
without reading it (R226). -/
def faultFlags (i : Instr) (old fl : Flags) : Prop :=
  match i with
  | .mov _ _ | .movb _ _ | .clr _ => flagFacts i old fl
  | .cmp _ _ | .add _ _ | .sub _ _ | .inc _ | .comb _ => fl = old

/-- The completed state, with the flags `fl` written: CMP moves its destination's register, MOVB to a register
writes all of it, every other instruction stores to its destination. -/
def completed (i : Instr) (s t : State) (fl : Flags) : Prop :=
  match i with
  | .cmp _ dst => t = (moved dst .word (afterSource i s)).setFlags fl
  | .movb _ (.registerDirect r) => ∃ v, t = ((afterSource i s).setReg r v).setFlags fl
  | .mov _ _ | .add _ _ | .sub _ _ | .movb _ _ | .clr _ | .inc _ | .comb _ =>
    ∃ v, t = (stored (dstOf i) (widthOf i) v (afterSource i s)).setFlags fl

@[simp] theorem afterSource_flags (i : Instr) (s : State) : (afterSource i s).flags = s.flags := by
  cases i <;> simp [afterSource, srcOf]
@[simp] theorem afterSource_mem (i : Instr) (s : State) : (afterSource i s).mem = s.mem := by
  cases i <;> simp [afterSource, srcOf]
@[simp] theorem afterSource_memSize (i : Instr) (s : State) : (afterSource i s).memSize = s.memSize := by
  cases i <;> simp [afterSource, srcOf]
@[simp] theorem afterSource_status (i : Instr) (s : State) : (afterSource i s).status = s.status := by
  cases i <;> simp [afterSource, srcOf]

/-- What a completed instruction leaves of flags, status and memory size. -/
theorem completed_facts {i : Instr} {s t : State} {fl : Flags} (h : completed i s t fl) :
    t.flags = fl ∧ t.status = s.status ∧ t.memSize = s.memSize := by
  cases i with
  | cmp src dst => cases h; simp
  | movb src dst => cases dst <;> obtain ⟨v, rfl⟩ := h <;> simp
  | _ => obtain ⟨v, rfl⟩ := h; simp

/-- A result's N and Z are never both set (R162). -/
theorem flagsOf_not_n_and_z {W : Nat} (res : BitVec W) (v c : Bool) :
    ¬ ((flagsOf res v c).n = true ∧ (flagsOf res v c).z = true) := by
  rintro ⟨h, hz⟩
  obtain rfl := of_decide_eq_true hz
  simp [flagsOf] at h

/-- The source of a two-operand instruction faults. -/
theorem source_faults {src : Operand} {w : Width} {s : State} {k : Word → Sem Unit}
    (h : operandFits src w s = false) :
    outcomeOf (readOperand src w .standalone >>= k) s =
      .next (takeFault (.memoryAccessFault (faultAddress src w s)) (decremented src w s)) :=
  outcomeOf_error (sem_bind_error (readOperand_fault _ _ _ _ h))

/-- Flags, then a standalone write of the destination: MOV, CLR and MOVB to memory. -/
theorem flagsThenWrite {dst : Operand} {w : Width} {v : Word} (fl : Flags) (s : State) :
    ∃ t, outcomeOf (putFlags fl >>= fun _ => writeOperand dst w v .standalone) s = .next t ∧
      ((operandFits dst w s = false ∧ t =
          takeFault (.memoryAccessFault (faultAddress dst w s)) ((decremented dst w s).setFlags fl)) ∨
        (operandFits dst w s = true ∧ t = (stored dst w v s).setFlags fl)) := by
  cases h : operandFits dst w s with
  | true =>
    refine ⟨_, outcomeOf_ok ?_, .inr ⟨rfl, rfl⟩⟩
    rw [← stored_setFlags]
    exact writeOperand_standalone _ _ _ _ (by simpa using h)
  | false =>
    refine ⟨_, outcomeOf_error ?_, .inl ⟨rfl, rfl⟩⟩
    rw [← decremented_setFlags, ← faultAddress_setFlags dst w s fl]
    exact writeOperand_fault _ _ _ _ (by simpa using h)

/-- The first half of a pair, a result and flags from its value, then the second half: ADD, SUB, INC, COMB. -/
theorem readFlagsWrite {dst : Operand} {w : Width} (res : Word → Word) (fl : Word → Flags → Flags) (s : State) :
    ∃ t, outcomeOf (do
        let d ← readOperand dst w .rmwFirst
        let old ← getFlags
        putFlags (fl d old)
        writeOperand dst w (res d) .rmwSecond) s = .next t ∧
      ((operandFits dst w s = false ∧ t =
          takeFault (.memoryAccessFault (faultAddress dst w s)) (decremented dst w s)) ∨
        (operandFits dst w s = true ∧ t = (stored dst w (res (operandValue dst w s)) s).setFlags
          (fl (operandValue dst w s) s.flags))) := by
  cases h : operandFits dst w s with
  | true =>
    refine ⟨_, outcomeOf_ok ?_, .inr ⟨rfl, rfl⟩⟩
    rw [sem_bind_ok (readOperand_rmwFirst _ _ _ h), sem_bind, sem_getFlags]
    simp only [sem_bind, sem_putFlags, decremented_flags]
    rw [writeOperand_rmwSecond _ _ _ _ _ h, stored_setFlags]
  | false =>
    exact ⟨_, outcomeOf_error (sem_bind_error (readOperand_fault _ _ _ _ h)), .inl ⟨rfl, rfl⟩⟩

/-- A piece of a step after a read that succeeds runs on the state the read leaves. -/
theorem outcomeOf_bind_ok {α : Type} {x : Sem α} {k : α → Sem Unit} {s t : State} {v : α} (h : x s = .ok v t) :
    outcomeOf (x >>= k) s = outcomeOf (k v) t := by
  rw [outcomeOf, sem_bind_ok h, outcomeOf]

/-- Everything executing an instruction can do: it always answers a next state. -/
theorem exec_cases (i : Instr) (s : State) :
    ∃ t, exec i s = .next t ∧
      ((∃ src, srcOf i = some src ∧ operandFits src (widthOf i) s = false ∧
          t = takeFault (.memoryAccessFault (faultAddress src (widthOf i) s)) (decremented src (widthOf i) s)) ∨
        (∃ fl, faultFlags i s.flags fl ∧ operandFits (dstOf i) (widthOf i) (afterSource i s) = false ∧
          t = takeFault (.memoryAccessFault (faultAddress (dstOf i) (widthOf i) (afterSource i s)))
            ((decremented (dstOf i) (widthOf i) (afterSource i s)).setFlags fl)) ∨
        ∃ fl, flagFacts i s.flags fl ∧ operandFits (dstOf i) (widthOf i) (afterSource i s) = true ∧
          completed i s t fl) := by
  cases i with
  | mov src dst =>
    cases hs : operandFits src .word s with
    | false => exact ⟨_, source_faults hs, .inl ⟨src, rfl, hs, rfl⟩⟩
    | true =>
      have hf : flagFacts (.mov src dst) s.flags (aluPass (operandValue src .word s) s.flags).flags :=
        ⟨flagsOf_not_n_and_z (operandValue src .word s) _ _, rfl, rfl⟩
      have hx : exec (.mov src dst) s = outcomeOf (do
          putFlags (aluPass (operandValue src .word s) s.flags).flags
          writeOperand dst .word (operandValue src .word s) .standalone) (moved src .word s) := by
        rw [← moved_flags src .word s]
        exact outcomeOf_bind_ok (readOperand_standalone src .word s hs)
      obtain ⟨t, ht, ⟨h, rfl⟩ | ⟨h, rfl⟩⟩ :=
        flagsThenWrite (dst := dst) (w := .word) (v := operandValue src .word s)
          (aluPass (operandValue src .word s) s.flags).flags (moved src .word s)
      · exact ⟨_, hx.trans ht, .inr (.inl ⟨_, hf, h, rfl⟩)⟩
      · exact ⟨_, hx.trans ht, .inr (.inr ⟨_, hf, h, _, rfl⟩)⟩
  | cmp src dst =>
    cases hs : operandFits src .word s with
    | false => exact ⟨_, source_faults hs, .inl ⟨src, rfl, hs, rfl⟩⟩
    | true =>
      have hr := readOperand_standalone src .word s hs
      cases hd : operandFits dst .word (moved src .word s) with
      | false =>
        refine ⟨_, (outcomeOf_bind_ok hr).trans (source_faults hd), .inr (.inl ⟨s.flags, rfl, hd, ?_⟩)⟩
        rw [← moved_flags src .word s, ← decremented_flags dst .word (moved src .word s)]
        rfl
      | true =>
        exact ⟨_, (outcomeOf_bind_ok hr).trans (outcomeOf_bind_ok (readOperand_standalone _ _ _ hd)),
          .inr (.inr ⟨(aluCmp (operandValue src .word s) (operandValue dst .word (moved src .word s))).flags,
            ⟨flagsOf_not_n_and_z (aluCmp _ _).res _ _, trivial⟩, hd, rfl⟩)⟩
  | add src dst =>
    cases hs : operandFits src .word s with
    | false => exact ⟨_, source_faults hs, .inl ⟨src, rfl, hs, rfl⟩⟩
    | true =>
      have hr := readOperand_standalone src .word s hs
      obtain ⟨t, ht, ⟨h, rfl⟩ | ⟨h, rfl⟩⟩ :=
        readFlagsWrite (dst := dst) (w := .word) (fun d => (aluAdd (operandValue src .word s) d).res)
          (fun d _ => (aluAdd (operandValue src .word s) d).flags) (moved src .word s)
      · refine ⟨_, (outcomeOf_bind_ok hr).trans ht, .inr (.inl ⟨s.flags, rfl, h, ?_⟩)⟩
        rw [← moved_flags src .word s, ← decremented_flags dst .word (moved src .word s)]
        rfl
      · exact ⟨_, (outcomeOf_bind_ok hr).trans ht,
          .inr (.inr ⟨_, ⟨flagsOf_not_n_and_z (aluAdd _ _).res _ _, trivial⟩, h, _, rfl⟩)⟩
  | sub src dst =>
    cases hs : operandFits src .word s with
    | false => exact ⟨_, source_faults hs, .inl ⟨src, rfl, hs, rfl⟩⟩
    | true =>
      have hr := readOperand_standalone src .word s hs
      obtain ⟨t, ht, ⟨h, rfl⟩ | ⟨h, rfl⟩⟩ :=
        readFlagsWrite (dst := dst) (w := .word) (fun d => (aluSub (operandValue src .word s) d).res)
          (fun d _ => (aluSub (operandValue src .word s) d).flags) (moved src .word s)
      · refine ⟨_, (outcomeOf_bind_ok hr).trans ht, .inr (.inl ⟨s.flags, rfl, h, ?_⟩)⟩
        rw [← moved_flags src .word s, ← decremented_flags dst .word (moved src .word s)]
        rfl
      · exact ⟨_, (outcomeOf_bind_ok hr).trans ht,
          .inr (.inr ⟨_, ⟨flagsOf_not_n_and_z (aluSub _ _).res _ _, trivial⟩, h, _, rfl⟩)⟩
  | movb src dst =>
    cases hs : operandFits src .byte s with
    | false => exact ⟨_, source_faults hs, .inl ⟨src, rfl, hs, rfl⟩⟩
    | true =>
      have hf : flagFacts (.movb src dst) s.flags (aluPass (loByte (operandValue src .byte s)) s.flags).flags :=
        ⟨flagsOf_not_n_and_z (loByte (operandValue src .byte s)) _ _, rfl, rfl⟩
      have hx : exec (.movb src dst) s = outcomeOf (do
          putFlags (aluPass (loByte (operandValue src .byte s)) s.flags).flags
          writeMovb dst (loByte (operandValue src .byte s))) (moved src .byte s) := by
        rw [← moved_flags src .byte s]
        exact outcomeOf_bind_ok (readOperand_standalone src .byte s hs)
      by_cases hd : ∃ r, dst = .registerDirect r
      · obtain ⟨r, rfl⟩ := hd
        exact ⟨_, hx.trans (outcomeOf_ok rfl), .inr (.inr ⟨_, hf, rfl, _, rfl⟩)⟩
      · have hw : ∀ b, writeMovb dst b = writeOperand dst .byte (zeroExtend b) .standalone := fun b => by
          cases dst with
          | registerDirect r => exact absurd ⟨r, rfl⟩ hd
          | _ => rfl
        rw [hw] at hx
        obtain ⟨t, ht, ⟨h, rfl⟩ | ⟨h, rfl⟩⟩ :=
          flagsThenWrite (dst := dst) (w := .byte) (v := zeroExtend (loByte (operandValue src .byte s)))
            (aluPass (loByte (operandValue src .byte s)) s.flags).flags (moved src .byte s)
        · exact ⟨_, hx.trans ht, .inr (.inl ⟨_, hf, h, rfl⟩)⟩
        · refine ⟨_, hx.trans ht, .inr (.inr ⟨_, hf, h, ?_⟩)⟩
          cases dst with
          | registerDirect r => exact absurd ⟨r, rfl⟩ hd
          | _ => exact ⟨_, rfl⟩
  | clr dst =>
    have hf : flagFacts (.clr dst) s.flags (aluClr : AluOut 16).flags := ⟨by simp [aluClr], rfl⟩
    obtain ⟨t, ht, ⟨h, rfl⟩ | ⟨h, rfl⟩⟩ :=
      flagsThenWrite (dst := dst) (w := .word) (v := 0) (aluClr : AluOut 16).flags s
    · exact ⟨_, ht, .inr (.inl ⟨_, hf, h, rfl⟩)⟩
    · exact ⟨_, ht, .inr (.inr ⟨_, hf, h, _, rfl⟩)⟩
  | inc dst =>
    have hv : ∀ d : Word, decide (d = BitVec.allOnes 16) = decide (d + 1 = 0) := fun d => by
      rw [decide_eq_decide, show BitVec.allOnes 16 = 0xFFFF from rfl]
      constructor <;> intro h <;> bv_omega
    obtain ⟨t, ht, ⟨h, rfl⟩ | ⟨h, rfl⟩⟩ :=
      readFlagsWrite (dst := dst) (w := .word) (fun d => d + 1) (fun d old => (aluInc d old).flags) s
    · refine ⟨_, ht, .inr (.inl ⟨s.flags, rfl, h, ?_⟩)⟩
      rw [← decremented_flags dst .word s]
      rfl
    · exact ⟨_, ht, .inr (.inr ⟨(aluInc (operandValue dst .word s) s.flags).flags,
        ⟨flagsOf_not_n_and_z (operandValue dst .word s + 1) _ _, hv _, rfl⟩, h, _, rfl⟩)⟩
  | comb dst =>
    obtain ⟨t, ht, ⟨h, rfl⟩ | ⟨h, rfl⟩⟩ :=
      readFlagsWrite (dst := dst) (w := .byte) (fun d => zeroExtend (aluCom (loByte d)).res)
        (fun d _ => (aluCom (loByte d)).flags) s
    · refine ⟨_, ht, .inr (.inl ⟨s.flags, rfl, h, ?_⟩)⟩
      rw [← decremented_flags dst .byte s]
      rfl
    · exact ⟨_, ht, .inr (.inr ⟨(aluCom (loByte (operandValue dst .byte s))).flags,
        ⟨flagsOf_not_n_and_z (~~~(loByte (operandValue dst .byte s))) _ _, rfl, rfl⟩, h, _, rfl⟩)⟩

end Sys2Proof.Machine
end

