-- ==== Sys2Proof/Laws/Cycle.lean ====
section
/-! SUPPORT. What the fetch can do, said once: both words, or a fault at the first access out of bounds
(41_instruction_cycle.md R141 to R143); and the fetch keeps memory. -/

namespace Sys2Proof.Machine

variable (s : State)

@[simp] theorem advanced_pc : (advanced s).pc = s.pc + 2 := by simp [advanced, State.pc]
@[simp] theorem advanced_flags : (advanced s).flags = s.flags := rfl
@[simp] theorem advanced_mem : (advanced s).mem = s.mem := rfl
@[simp] theorem advanced_memSize : (advanced s).memSize = s.memSize := rfl
@[simp] theorem advanced_status : (advanced s).status = s.status := rfl
@[simp] theorem advanced_setFlags (fl : Flags) : advanced (s.setFlags fl) = (advanced s).setFlags fl := rfl
@[simp] theorem setFlags_pc (fl : Flags) : (s.setFlags fl).pc = s.pc := rfl
@[simp] theorem opcodeAt_setFlags (fl : Flags) : opcodeAt (s.setFlags fl) = opcodeAt s := rfl
@[simp] theorem dispAt_setFlags (fl : Flags) : dispAt (s.setFlags fl) = dispAt s := rfl

theorem reg_advanced {q : Reg} (h : q ≠ Reg.pc) : (advanced s).reg q = s.reg q := reg_setReg_ne _ _ _ _ h

/-- Everything the fetch of both words can do. -/
theorem fetchWords_spec :
    fetchWords s =
      if s.inBounds s.pc 2 then
        if s.inBounds (s.pc + 2) 2 then .ok (opcodeAt s, dispAt s) (advanced s)
        else .error (.memoryAccessFault (s.pc + 2)) (advanced s)
      else .error (.memoryAccessFault s.pc) s := by
  simp only [fetchWords, sem_bind, sem_getReg, memReadWord_spec, State.pc]
  by_cases h : s.inBounds (s.reg Reg.pc) 2 <;> simp [h]
  by_cases h2 : s.inBounds (s.reg Reg.pc + 2) 2
  · simp at h2; simp [h2, opcodeAt, dispAt, advanced, State.pc]
  · simp at h2; simp [h2, advanced, State.pc]

/-- Everything fetch and decode can do. -/
theorem fetchDecode_spec :
    fetchDecode s =
      if s.inBounds s.pc 2 then
        if s.inBounds (s.pc + 2) 2 then
          match decodeWords (opcodeAt s) (dispAt s) with
          | .ok i => .ok i (advanced s)
          | .error _ => .error (.decodeFault (opcodeAt s)) (advanced s)
        else .error (.memoryAccessFault (s.pc + 2)) (advanced s)
      else .error (.memoryAccessFault s.pc) s := by
  simp only [fetchDecode, sem_bind, fetchWords_spec]
  by_cases h : s.inBounds s.pc 2 <;> by_cases h2 : s.inBounds (s.pc + 2) 2 <;>
    simp only [h, h2, if_true, if_false, Bool.false_eq_true]
  cases decodeWords (opcodeAt s) (dispAt s) <;> rfl

/-- Everything a step of a RUNNING machine can do: fault before the instruction runs, with `x[7]` advanced or
not, or run the decoded instruction in the advanced state. -/
theorem step_cases {s : State} (hs : s.status = .running) :
    (∃ f u, (u = s ∨ u = advanced s) ∧ step s = .next (takeFault f u)) ∨
      ∃ i, fetchFits s = true ∧ decodeWords (opcodeAt s) (dispAt s) = .ok i ∧ step s = exec i (advanced s) := by
  simp only [step, hs, fetchDecode_spec]
  cases h1 : s.inBounds s.pc 2
  · exact .inl ⟨_, _, .inl rfl, rfl⟩
  cases h2 : s.inBounds (s.pc + 2) 2
  · exact .inl ⟨_, _, .inr rfl, rfl⟩
  cases decodeWords (opcodeAt s) (dispAt s) with
  | error e => exact .inl ⟨_, _, .inr rfl, rfl⟩
  | ok i => exact .inr ⟨i, by rw [fetchFits, h1, h2]; rfl, rfl, rfl⟩

end Sys2Proof.Machine
end

