-- ==== Sys2Proof/Laws/Decode.lean ====
section
/-! SUPPORT. The fields of an instruction word, taken apart and put together, and the operands they name. -/

namespace Sys2Proof

/-! ## Operands and their six bits -/

/-- The fields of an operand name it again, given its displacement. -/
theorem operandOfFields_fields (o : Operand) (x : Word) (h : o.disp = none ∨ o.disp = some x) :
    operandOfFields (modeField o) (BitVec.ofFin o.reg) x = o := by
  cases o <;> simp_all [Operand.disp, operandOfFields, modeField, Operand.reg]

/-- An operand named by fields has those fields. -/
theorem modeField_operandOfFields (m r : BitVec 3) (x : Word) : modeField (operandOfFields m r x) = m := by
  revert m; intro m
  have : ∀ m : BitVec 3, modeField (operandOfFields m r x) = m := by
    intro m
    obtain ⟨⟨k, hk⟩⟩ := m
    interval_cases k <;> rfl
  exact this m

theorem reg_operandOfFields (m r : BitVec 3) (x : Word) : (operandOfFields m r x).reg = r.toFin := by
  obtain ⟨⟨k, hk⟩⟩ := m
  interval_cases k <;> rfl

/-- An operand named by fields carries the displacement it was given, or none. -/
theorem disp_operandOfFields (m r : BitVec 3) (x : Word) :
    (operandOfFields m r x).disp = none ∨ (operandOfFields m r x).disp = some x := by
  obtain ⟨⟨k, hk⟩⟩ := m
  interval_cases k <;> simp [operandOfFields, Operand.disp]

/-- The six bits of an operand named by fields. -/
theorem operandField_operandOfFields (m r : BitVec 3) (x : Word) :
    operandField (operandOfFields m r x) = m ++ r := by
  rw [operandField, modeField_operandOfFields, reg_operandOfFields]

/-! ## The fields of a word -/

variable (f : BitVec 4) (sm sr dm dr : BitVec 3) (sel : BitVec 6)

/-- Bits 15:12 of a word put together from its fields. -/
theorem famField_formatD : famField (f ++ sm ++ sr ++ dm ++ dr) = f := by
  refine BitVec.eq_of_getLsbD_eq fun i hi => ?_
  simp only [famField, BitVec.getLsbD_extractLsb', BitVec.getLsbD_append]
  interval_cases i <;> simp

/-- The operands of a two-operand word put together from its fields (R83). -/
theorem srcOperand_formatD (x : Word) : srcOperand (f ++ sm ++ sr ++ dm ++ dr) x = operandOfFields sm sr x := by
  have h1 : (f ++ sm ++ sr ++ dm ++ dr : Word).extractLsb' 9 3 = sm := by
    refine BitVec.eq_of_getLsbD_eq fun i hi => ?_
    simp only [BitVec.getLsbD_extractLsb', BitVec.getLsbD_append]
    interval_cases i <;> simp
  have h2 : (f ++ sm ++ sr ++ dm ++ dr : Word).extractLsb' 6 3 = sr := by
    refine BitVec.eq_of_getLsbD_eq fun i hi => ?_
    simp only [BitVec.getLsbD_extractLsb', BitVec.getLsbD_append]
    interval_cases i <;> simp
  rw [srcOperand, h1, h2]

theorem dstOperand_formatD (x : Word) : dstOperand (f ++ sm ++ sr ++ dm ++ dr) x = operandOfFields dm dr x := by
  have h1 : (f ++ sm ++ sr ++ dm ++ dr : Word).extractLsb' 3 3 = dm := by
    refine BitVec.eq_of_getLsbD_eq fun i hi => ?_
    simp only [BitVec.getLsbD_extractLsb', BitVec.getLsbD_append]
    interval_cases i <;> simp
  have h2 : (f ++ sm ++ sr ++ dm ++ dr : Word).extractLsb' 0 3 = dr := by
    refine BitVec.eq_of_getLsbD_eq fun i hi => ?_
    simp only [BitVec.getLsbD_extractLsb', BitVec.getLsbD_append]
    interval_cases i <;> simp
  rw [dstOperand, h1, h2]

/-- A one-operand word is a two-operand word whose source bits are the selector (R82, R91). -/
theorem formatS_eq_formatD :
    (f ++ sel ++ dm ++ dr : Word) = f ++ sel.extractLsb' 3 3 ++ sel.extractLsb' 0 3 ++ dm ++ dr := by
  refine BitVec.eq_of_getLsbD_eq fun i hi => ?_
  simp only [BitVec.getLsbD_extractLsb', BitVec.getLsbD_append]
  interval_cases i <;> simp

theorem selField_formatS : selField (f ++ sel ++ dm ++ dr) = sel := by
  refine BitVec.eq_of_getLsbD_eq fun i hi => ?_
  simp only [selField, BitVec.getLsbD_extractLsb', BitVec.getLsbD_append]
  interval_cases i <;> simp

theorem famField_formatS : famField (f ++ sel ++ dm ++ dr) = f := by
  rw [formatS_eq_formatD, famField_formatD]

theorem dstOperand_formatS (x : Word) : dstOperand (f ++ sel ++ dm ++ dr) x = operandOfFields dm dr x := by
  rw [formatS_eq_formatD, dstOperand_formatD]

/-- A word is its fields put together. -/
theorem word_eq_formatD (ir : Word) :
    ir = famField ir ++ ir.extractLsb' 9 3 ++ ir.extractLsb' 6 3 ++ ir.extractLsb' 3 3 ++ ir.extractLsb' 0 3 := by
  refine BitVec.eq_of_getLsbD_eq fun i hi => ?_
  simp only [famField, BitVec.getLsbD_extractLsb', BitVec.getLsbD_append]
  interval_cases i <;> simp

theorem word_eq_formatS (ir : Word) :
    ir = famField ir ++ selField ir ++ ir.extractLsb' 3 3 ++ ir.extractLsb' 0 3 := by
  refine BitVec.eq_of_getLsbD_eq fun i hi => ?_
  simp only [famField, selField, BitVec.getLsbD_extractLsb', BitVec.getLsbD_append]
  interval_cases i <;> simp

/-- The six bits of the operands that a word names. -/
theorem operandField_srcOperand (ir x : Word) :
    operandField (srcOperand ir x) = ir.extractLsb' 9 3 ++ ir.extractLsb' 6 3 :=
  operandField_operandOfFields _ _ _

theorem operandField_dstOperand (ir x : Word) :
    operandField (dstOperand ir x) = ir.extractLsb' 3 3 ++ ir.extractLsb' 0 3 :=
  operandField_operandOfFields _ _ _

end Sys2Proof
end

