-- ==== Sys2Proof/Laws/Invariant.lean ====
section
/-! SUPPORT. The form of a state that runs keep (`State.inv`), kept by each update. -/

namespace Sys2Proof.Machine

theorem inv_iff (s : State) : s.inv = true ↔ s.mem.wf = true ∧ ∀ c ∈ s.mem, c.1 < s.memSize.val := by
  simp [State.inv]

variable {s : State} (h : s.inv = true)
include h

/-- The form is about memory and its size alone. -/
theorem inv_of_mem {t : State} (hm : t.mem = s.mem) (hz : t.memSize = s.memSize) : t.inv = true := by
  rw [inv_iff] at h ⊢
  rwa [hm, hz]

/-- A byte stored in bounds keeps the form. -/
theorem inv_write {a : Nat} {v : Byte} (ha : a < s.memSize.val) : (s.setMem (s.mem.write a v)).inv = true := by
  rw [inv_iff] at h ⊢
  refine ⟨Memory.write_wf h.1 a v, fun c hc => ?_⟩
  rcases Memory.mem_write hc with hc | ⟨rfl, -⟩
  · exact h.2 c hc
  · exact ha

/-- A word stored in bounds keeps the form. -/
theorem inv_writeWord {a : Nat} {v : Word} (ha : a + 1 < s.memSize.val) :
    (s.setMem (s.mem.writeWord a v)).inv = true :=
  inv_write (inv_write h (v := loByte v) (by omega : a < s.memSize.val)) (v := hiByte v) ha

/-- An operand whose accesses are in bounds, written, keeps the form. -/
theorem inv_stored {o : Operand} {w : Width} {v : Word} (hf : operandFits o w s = true) :
    (stored o w v s).inv = true := by
  simp only [operandFits, locationFits, Bool.and_eq_true] at hf
  unfold stored
  cases hl : operandLocation o w s with
  | register r => exact inv_of_mem h (by simp) (by simp)
  | memory a =>
    have ha : a.toNat + w.bytes ≤ s.memSize.val := by simpa [hl, State.inBounds] using hf.2
    cases w
    · exact inv_of_mem (inv_write h (v := loByte v) (a := a.toNat) ha) rfl (by simp)
    · exact inv_of_mem (inv_writeWord h (v := v) (a := a.toNat) ha) rfl (by simp)

end Sys2Proof.Machine
end

