-- ==== Sys2Proof/Laws/PerInstr.lean ====
section
/-! SUPPORT. What holds of every instruction as syntax, one lemma per constructor. -/

namespace Sys2Proof.Laws.Encoding

/-- An instruction has the two-operand format (30_encoding.md R83). -/
def twoOperand : Instr → Bool
  | .mov _ _ | .cmp _ _ | .add _ _ | .sub _ _ | .movb _ _ => true
  | .clr _ | .inc _ | .comb _ => false

/-- An instruction takes one word, and one more exactly when an operand consults the displacement (R80), and its
family field is 0 or 8 exactly where it has one operand (R81). -/
def Statement (i : Instr) : Prop :=
  (encode i).length = (if usesDisp i then 2 else 1) ∧
    (twoOperand i = true ↔ famField (opcodeWord i) ≠ 0 ∧ famField (opcodeWord i) ≠ 8)

/-- The format of a two-operand word, from its family field. -/
theorem famField_double (f : BitVec 4) (src dst : Operand) :
    famField (f ++ operandField src ++ operandField dst) = f := by
  refine BitVec.eq_of_getLsbD_eq fun i hi => ?_
  simp only [famField, BitVec.getLsbD_extractLsb', BitVec.getLsbD_append]
  interval_cases i <;> simp

/-- The format of a one-operand word, from its family field. -/
theorem famField_single (f : BitVec 4) (sel : BitVec 6) (dst : Operand) :
    famField (f ++ sel ++ operandField dst) = f := by
  refine BitVec.eq_of_getLsbD_eq fun i hi => ?_
  simp only [famField, BitVec.getLsbD_extractLsb', BitVec.getLsbD_append]
  interval_cases i <;> simp

/-- The words of a two-operand instruction are counted by its operands' displacements. -/
theorem length_double (w : Word) (a b : Option Word) :
    (w :: (a.or b).toList).length = if a.isSome || b.isSome then 2 else 1 := by
  cases a <;> cases b <;> rfl

/-- The words of a one-operand instruction are counted by its operand's displacement. -/
theorem length_single (w : Word) (a : Option Word) :
    (w :: a.toList).length = if a.isSome then 2 else 1 := by
  cases a <;> rfl

variable (src dst : Operand)

theorem mov : Statement (.mov src dst) :=
  ⟨length_double _ _ _, by rw [opcodeWord, famField_double]; simp [twoOperand]⟩

theorem cmp : Statement (.cmp src dst) :=
  ⟨length_double _ _ _, by rw [opcodeWord, famField_double]; simp [twoOperand]⟩

theorem add : Statement (.add src dst) :=
  ⟨length_double _ _ _, by rw [opcodeWord, famField_double]; simp [twoOperand]⟩

theorem sub : Statement (.sub src dst) :=
  ⟨length_double _ _ _, by rw [opcodeWord, famField_double]; simp [twoOperand]⟩

theorem movb : Statement (.movb src dst) :=
  ⟨length_double _ _ _, by rw [opcodeWord, famField_double]; simp [twoOperand]⟩

theorem clr : Statement (.clr dst) :=
  ⟨length_single _ _, by rw [opcodeWord, famField_single]; simp [twoOperand]⟩

theorem inc : Statement (.inc dst) :=
  ⟨length_single _ _, by rw [opcodeWord, famField_single]; simp [twoOperand]⟩

theorem comb : Statement (.comb dst) :=
  ⟨length_single _ _, by rw [opcodeWord, famField_single]; simp [twoOperand]⟩

end Sys2Proof.Laws.Encoding
end

