-- ==== Sys2Proof/Tests/Slice0.lean ====
section
/-! SUPPORT. Small tests, each on one step or one call, with the expected values of spec/95_test_vectors.md or
of the rule named; and for every statement with hypotheses, a concrete case that meets them. -/

namespace Sys2Proof.Tests

open Machine

/-- A machine of the given size, with registers, flags and words of memory set by the host. -/
def machine (size : MemSize) (regs : List (Reg × Word)) (words : List (Nat × Word))
    (fl : Flags := ⟨false, false, false, false⟩) : State :=
  let s := regs.foldl (fun s r => s.setReg r.1 r.2) ((State.construct size).setFlags fl)
  words.foldl (fun s c => s.setMem (s.mem.writeWord c.1 c.2)) s

/-- What a test looks at after one step. -/
def after {α : Type} (s : State) (look : State → α) : Option α :=
  match step s with
  | .next t => some (look t)
  | .fault _ => none
  | .refused _ => none

/-- `1 0 1 1`, the flags before each line of part 8. -/
def fl1011 : Flags := ⟨true, false, true, true⟩

/-! ## Ill-formed terms (R147) -/

theorem test_wf_mov : (Instr.mov (.index 1 2) (.index 2 4)).wf = false := by decide
theorem test_wf_cmp : (Instr.cmp (.index 1 2) (.deferredIndex 2 4)).wf = false := by decide
theorem test_wf_add : (Instr.add (.deferredIndex 1 2) (.index 2 4)).wf = false := by decide
theorem test_wf_sub : (Instr.sub (.deferredIndex 1 2) (.deferredIndex 2 4)).wf = false := by decide
theorem test_wf_movb : (Instr.movb (.index 7 0) (.index 7 1)).wf = false := by decide

/-! ## Decoding, words written bit by bit from R82, R83 and R88

Fields: operation, source mode, source register, destination mode, destination register; or family, selector,
destination mode, destination register. -/

theorem test_decode_mov :
    decodeWords 0b0001_010_111_110_001 0x0005 = .ok (.mov (.autoincrement 7) (.index 1 0x0005)) := by decide
theorem test_decode_cmp :
    decodeWords 0b0010_001_010_011_100 0 = .ok (.cmp (.registerDeferred 2) (.deferredAutoincrement 4)) := by decide
theorem test_decode_add :
    decodeWords 0b0110_110_001_111_010 0x0002 = .ok (.add (.index 1 0x0002) (.deferredIndex 2 0x0002)) := by decide
theorem test_decode_sub :
    decodeWords 0b1110_100_101_101_011 0 = .ok (.sub (.autodecrement 5) (.deferredAutodecrement 3)) := by decide
theorem test_decode_movb :
    decodeWords 0b1001_000_001_001_011 0 = .ok (.movb (.registerDirect 1) (.registerDeferred 3)) := by decide
theorem test_decode_clr :
    decodeWords 0b0000_101000_010_101 0 = .ok (.clr (.autoincrement 5)) := by decide
theorem test_decode_inc :
    decodeWords 0b0000_101010_000_011 0 = .ok (.inc (.registerDirect 3)) := by decide
theorem test_decode_comb :
    decodeWords 0b1000_101001_000_100 0 = .ok (.comb (.registerDirect 4)) := by decide

/-- Part 3: the word form of complement, the byte form of clear, and a binary operation of no row. -/
theorem test_decode_unimplemented :
    decodeWords 0x0A40 0 = .error (.unimplemented 0x0A40) ∧
      decodeWords 0x8A00 0 = .error (.unimplemented 0x8A00) ∧
      decodeWords 0xA001 0 = .error (.unimplemented 0xA001) := by decide

/-- R80, R60: bytes, low byte first; a displacement word only where an operand consults it. -/
theorem test_decode_bytes :
    decode [0x83, 0x0A] = .ok (.inc (.registerDirect 3)) ∧ decode [0x40, 0x1C] = .error .truncated ∧
      decode [0x40, 0x1C, 0xFE, 0xFF] = .ok (.mov (.index 1 0xFFFE) (.registerDirect 0)) ∧
      decode [0x83] = .error .truncated := by decide

/-- The opcode table's numbering: bit 0 is the least significant bit of the first word. -/
theorem test_decodeTableWord :
    decodeTableWord 16 0x6084 = some (.add (.registerDirect 2) (.registerDirect 4)) ∧
      decodeTableWord 32 0x00051C40 = some (.mov (.index 1 0x0005) (.registerDirect 0)) ∧
      decodeTableWord 16 0x0000 = none := by decide

/-! ## The eight instructions -/

/-- Part 7: `MOV #5,X(R1)`; the literal is also the displacement. -/
theorem test_mov_shared_word :
    after (machine 65536 [(1, 0x0100), (7, 0x1000)] [(0x1000, 0o012761), (0x1002, 0x0005)])
        (fun t => (t.mem.readWord 0x0105, t.reg 1, t.pc, t.status)) =
      some (0x0005, 0x0100, 0x1004, .running) := by decide

/-- Part 8, F34: `MOV -(R2),-(R1)`, the write out of bounds. -/
theorem test_mov_fault :
    after (machine 0x0400 [(2, 0x0202), (1, 0x0401), (7, 0x0100)] [(0x0100, 0o014241), (0x0200, 0x8000)] fl1011)
        (fun t => (t.reg 1, t.reg 2, t.pc, t.flags, t.status)) =
      some (0x03FF, 0x0200, 0x0102, ⟨true, false, false, true⟩, .faulted (.memoryAccessFault 0x03FF)) := by decide

/-- Part 7: `CMP (R1)+,(R1)+`. -/
theorem test_cmp_same_register :
    after (machine 65536 [(1, 0x0100), (7, 0x1000)] [(0x1000, 0o022121), (0x0100, 7), (0x0102, 7)])
        (fun t => (t.reg 1, t.flags)) = some (0x0104, ⟨false, true, false, true⟩) := by decide

/-- Part 5: CMP of 0x8000 and 0x0001 is source minus destination, and overflows. -/
theorem test_cmp_overflow :
    after (machine 65536 [(0, 0x8000), (1, 0x0001)] [(0, 0o020001)]) (fun t => (t.reg 1, t.flags)) =
      some (0x0001, ⟨false, false, true, true⟩) := by decide

/-- Part 1, scenario 4: `ADD (R2)+,R4`. -/
theorem test_add_scenario4 :
    after (machine 65536 [(2, 0o100002), (4, 0o010000), (7, 0o010000)] [(0o100002, 0o010000), (0o010000, 0o062204)])
        (fun t => (t.reg 2, t.reg 4, t.pc, t.mem.readWord 0o100002)) =
      some (0o100004, 0o020000, 0o010002, 0o010000) := by decide

/-- Part 7: `ADD R2,R2` with 0x4001, signed overflow without carry. -/
theorem test_add_overflow :
    after (machine 65536 [(2, 0x4001)] [(0, 0o060202)]) (fun t => (t.reg 2, t.flags)) =
      some (0x8002, ⟨true, false, true, false⟩) := by decide

/-- Part 5: SUB is destination minus source, 0x8000 - 0x0001, with V by the source's formula. -/
theorem test_sub_no_v :
    after (machine 65536 [(0, 0x0001), (1, 0x8000)] [(0, 0o160001)]) (fun t => (t.reg 1, t.flags)) =
      some (0x7FFF, ⟨false, false, false, true⟩) := by decide

/-- Part 5: 0x0005 - 0xFFFF borrows, and V is set where nothing overflows. -/
theorem test_sub_v_and_borrow :
    after (machine 65536 [(0, 0xFFFF), (1, 0x0005)] [(0, 0o160001)]) (fun t => (t.reg 1, t.flags)) =
      some (0x0006, ⟨false, false, true, false⟩) := by decide

/-- Part 7: `MOVB #0x80,R0`; sign extension, and `x[7]` ends at the opcode address plus 3. -/
theorem test_movb_sign :
    after (machine 65536 [(7, 0x1000)] [(0x1000, 0o112700), (0x1002, 0x0080)]) (fun t => (t.reg 0, t.pc)) =
      some (0xFF80, 0x1003) := by decide

/-- Part 7: `MOVB R0,-(SP)` stores one byte and moves SP by one. -/
theorem test_movb_push :
    after (machine 65536 [(0, 0xBEEF), (6, 0x0300), (7, 0x1000)] [(0x1000, 0o110046)])
        (fun t => (t.reg 6, t.mem.read 0x02FF, t.mem.read 0x0300, t.flags.n)) =
      some (0x02FF, 0xEF, 0x00, true) := by decide

/-- Part 1, scenario 3: `CLR (R5)+`. -/
theorem test_clr_scenario3 :
    after (machine 65536 [(5, 0o030000), (7, 0o020000)] [(0o030000, 0o111116), (0o020000, 0o005025)])
        (fun t => (t.mem.readWord 0o030000, t.reg 5, t.pc)) = some (0, 0o030002, 0o020002) := by decide

/-- Part 8, F25: `CLR (R1)` out of bounds; the flags are already written. -/
theorem test_clr_fault :
    after (machine 0x0400 [(1, 0x0400), (7, 0x0100)] [(0x0100, 0o005011)] fl1011) (fun t => (t.flags, t.status)) =
      some (⟨false, true, false, false⟩, .faulted (.memoryAccessFault 0x0400)) := by decide

/-- Part 5: INC of 0xFFFF sets Z and V and keeps C. -/
theorem test_inc_wraps :
    after (machine 65536 [(0, 0xFFFF)] [(0, 0o005200)] ⟨false, false, false, true⟩) (fun t => (t.reg 0, t.flags)) =
      some (0x0000, ⟨false, true, true, true⟩) := by decide

/-- Part 7: `INC (PC)+` changes the word after the opcode and moves `x[7]` past it, once. -/
theorem test_inc_pc :
    after (machine 65536 [(7, 0x1000)] [(0x1000, 0o005227), (0x1002, 0x00FF)])
        (fun t => (t.mem.readWord 0x1002, t.pc)) = some (0x0100, 0x1004) := by decide

/-- Part 1, scenario 2: `COMB R4` keeps the high byte. -/
theorem test_comb_scenario2 :
    after (machine 65536 [(4, 0o022222)] [(0, 0o105104)]) (fun t => (t.reg 4, t.pc, t.flags)) =
      some (0o022155, 2, ⟨false, false, false, true⟩) := by decide

/-- Part 7: `COMB @(SP)+` moves SP by two, the width of the pointer. -/
theorem test_comb_deferred :
    after (machine 65536 [(6, 0x0300), (7, 0x1000)] [(0x1000, 0o105136), (0x0300, 0x0400), (0x0400, 0x000F)])
        (fun t => (t.reg 6, t.mem.read 0x0400)) = some (0x0302, 0xF0) := by decide

/-! ## The cycle, reset, and the host -/

/-- Part 8, F6: an unimplemented word whose displacement fetch is out of bounds faults at the fetch. -/
theorem test_displacement_first :
    after (machine 0x0400 [(7, 0x03FE)] []) (fun t => (t.pc, t.status)) =
      some (0x0400, .faulted (.memoryAccessFault 0x0400)) := by decide

/-- Part 7: an opcode at 0xFFFE has its displacement word at 0x0000. -/
theorem test_fetch_wraps :
    after (machine 65536 [(7, 0xFFFE)] [(0xFFFE, 0o005200)]) (fun t => (t.reg 0, t.pc, t.status)) =
      some (0x0001, 0x0000, .running) := by decide

/-- R252: from reset with nothing loaded, the first step raises `DecodeFault(0x0000)`. -/
theorem test_reset_step :
    after State.reset (fun t => (t.pc, t.status)) = some (0x0002, .faulted (.decodeFault 0x0000)) := by decide

/-- R89: the word 0x0A80 is `INC R0`, run as the first instruction after reset. -/
theorem test_withFetchWord :
    after (State.reset.withFetchWord 16 0x0A80) (fun t => (t.reg 0, t.pc, t.status)) =
      some (0x0001, 0x0002, .running) := by decide

/-- R202: a step asked of a FAULTED machine is refused without effect. -/
theorem test_faulted_refuses :
    transact .step (takeFault (.decodeFault 0) State.reset) = (.refused, takeFault (.decodeFault 0) State.reset) := by
  decide

/-- Part 4: `WriteOperand` in mode 5, width 1, through the operand port. -/
theorem test_operand_port :
    (transact (.writeOperand (.deferredAutodecrement 1) .byte 0x5A .standalone)
        (machine 0x2000 [(1, 0x0100)] [(0x00FE, 0x0300), (0x0300, 0xCAFE)])).2.mem.readWord 0x0300 = 0xCA5A := by
  decide

/-! ## The hypotheses of the statements, met

One theorem per statement with hypotheses, named after it, with each of its clauses at the edge of its range. -/

/-- 1024 bytes, with `x[1]` at the last byte and `x[2]` at the last word. -/
def edge : State := machine 0x0400 [(1, 0x03FF), (2, 0x03FE), (7, 0x0100)] [(0x0100, 0o011211)]

theorem witness_DecodeEncodeRoundTrip :
    (Instr.add (.index 7 0xFFFE) (.deferredIndex 0 0xFFFE)).wf = true ∧ (Instr.clr (.index 7 1)).wf = true := by decide

theorem witness_DecodedTermsReencode :
    decodeWords 0x9FFF 0x8000 = .ok (.movb (.deferredIndex 7 0x8000) (.deferredIndex 7 0x8000)) := by decide

/-- The first and the last word of each row. -/
theorem witness_DecodeFollowsOpcodeMap :
    ([0x1000, 0x1FFF].map (· &&& (0xF000 : Word)) = [0x1000, 0x1000]) ∧
      ([0x2000, 0x2FFF].map (· &&& (0xF000 : Word)) = [0x2000, 0x2000]) ∧
      ([0x6000, 0x6FFF].map (· &&& (0xF000 : Word)) = [0x6000, 0x6000]) ∧
      ([0xE000, 0xEFFF].map (· &&& (0xF000 : Word)) = [0xE000, 0xE000]) ∧
      ([0x9000, 0x9FFF].map (· &&& (0xF000 : Word)) = [0x9000, 0x9000]) ∧
      ([0x0A00, 0x0A3F].map (· &&& (0xFFC0 : Word)) = [0x0A00, 0x0A00]) ∧
      ([0x0A80, 0x0ABF].map (· &&& (0xFFC0 : Word)) = [0x0A80, 0x0A80]) ∧
      ([0x8A40, 0x8A7F].map (· &&& (0xFFC0 : Word)) = [0x8A40, 0x8A40]) := by decide

/-- Words beside the rows: their masked values are in neither list. -/
theorem witness_DecodeFollowsOpcodeMap_unimplemented :
    ([0x0A40, 0x0AC0, 0x8A80, 0xA000, 0xFFFF].all fun ir : Word =>
      decide (ir &&& 0xF000 ∉ [0x1000, 0x2000, 0x6000, 0xE000, 0x9000] ∧
        ir &&& 0xFFC0 ∉ [0x0A00, 0x0A80, 0x8A40])) = true := by decide

/-- `MOV (R2),(R1)` at the highest address from which both words are fetched. -/
theorem witness_StepRunsDecodedInstruction :
    let s := machine 0x0400 [(7, 0x03FC)] [(0x03FC, 0o011211)]
    s.status = .running ∧ fetchFits s = true ∧
      decode [s.mem.read s.pc.toNat, s.mem.read (s.pc.toNat + 1), s.mem.read (s.pc + 2).toNat,
        s.mem.read ((s.pc + 2).toNat + 1)] = .ok (.mov (.registerDeferred 2) (.registerDeferred 1)) := by decide

theorem witness_OpcodeFetch :
    (machine 0x0400 [(7, 0x03FE)] []).inBounds 0x03FE 2 = true ∧
      (machine 0x0400 [(7, 0x03FF)] []).inBounds (machine 0x0400 [(7, 0x03FF)] []).pc 2 = false ∧
      (machine 0x0400 [(7, 0x03FF)] []).status = .running := by decide

theorem witness_DisplacementFetchFault :
    let s := machine 0x0400 [(7, 0x03FE)] []
    s.status = .running ∧ s.inBounds s.pc 2 = true ∧ s.inBounds (s.pc + 2) 2 = false := by decide

/-- 0x03FC is the last address with a displacement word, 0x03FD the first without. -/
theorem witness_UnimplementedWordFaults :
    let s := machine 0x0400 [(7, 0x03FC)] []
    let t := machine 0x0400 [(7, 0x03FD)] []
    (s.status = .running ∧ s.inBounds s.pc 2 = true ∧
      decodeWords (opcodeAt s) (dispAt s) = .error (.unimplemented 0x0000) ∧ s.inBounds (s.pc + 2) 2 = true) ∧
    (t.status = .running ∧ t.inBounds t.pc 2 = true ∧
      decodeWords (opcodeAt t) (dispAt t) = .error (.unimplemented 0x0000) ∧ t.inBounds (t.pc + 2) 2 = false) := by
  decide

theorem witness_FaultedMachineTakesNoStep :
    (takeFault (.memoryAccessFault 0x0400) edge).status = .faulted (.memoryAccessFault 0x0400) := by decide

theorem witness_RunningStepAnswersNextState : State.reset.status = .running := by decide

/-- `MOV (R2),(R1)`: neither operand names register 7. -/
theorem witness_ProgramCounterAdvancesByTwo :
    edge.status = .running ∧ fetchFits edge = true ∧
      decodeWords (opcodeAt edge) (dispAt edge) = .ok (.mov (.registerDeferred 2) (.registerDeferred 1)) ∧
      Reg.pc ∉ changedRegs (.mov (.registerDeferred 2) (.registerDeferred 1)) ∧ after edge (fun _ => true) = some true := by
  decide

/-- `MOV #n,R6`. -/
theorem witness_LiteralSourceIsSkipped :
    let s := machine 0x0400 [(7, 0x03FC)] [(0x03FC, 0o012706)]
    s.status = .running ∧ fetchFits s = true ∧ (6 : Reg) ≠ Reg.pc ∧
      opcodeAt s = 0o012700 + BitVec.ofNat 16 (6 : Reg).val := by decide

theorem witness_PlacedInstructionRuns :
    let s := machine 0x0400 [(7, 0x03FC)] []
    s.inv = true ∧ s.status = .running ∧ s.pc.toNat + 4 ≤ s.memSize.val ∧
      decodeWords 0x0A80 0 = .ok (.inc (.registerDirect 0)) := by decide

theorem witness_ConstructionZeroes :
    after edge (fun _ => true) = some true ∧ ∀ n, Request.setPc 0 ≠ .construct n := ⟨by decide, fun _ h => by cases h⟩

theorem witness_FirstStepAfterReset :
    ((1 : MemSize).val ≤ 1) ∧ (2 ≤ (2 : MemSize).val ∧ (2 : MemSize).val ≤ 3) ∧
      (2 ≤ (3 : MemSize).val ∧ (3 : MemSize).val ≤ 3) ∧ 4 ≤ (4 : MemSize).val ∧ 4 ≤ (Fin.last 65536).val := by decide

theorem witness_StepKeepsInvariant : edge.inv = true ∧ after edge (fun _ => true) = some true := by decide

theorem witness_HostKeepsInvariant : edge.inv = true ∧ ∀ n, Request.step ≠ .construct n :=
  ⟨by decide, fun _ h => by cases h⟩

theorem witness_WordPackingLaw : edge.inv = true ∧ (0x03FE : Word).toNat + 1 < edge.memSize.val := by decide

theorem witness_MixedWidthAccesses :
    edge.inv = true ∧ (0x03FE : Word).toNat + 1 < edge.memSize.val ∧
      (0x03FD : Word).toNat + 1 < edge.memSize.val ∧ (0x03FD : Word).toNat + 2 < edge.memSize.val := by decide

theorem witness_ReadsAreBoundsChecked :
    (0x03FF : Word).toNat < edge.memSize.val ∧ edge.memSize.val ≤ (0x0400 : Word).toNat ∧
      (0x03FE : Word).toNat + 1 < edge.memSize.val ∧ edge.memSize.val ≤ (0x03FF : Word).toNat + 1 := by decide

theorem witness_WritesAreBoundsChecked :
    edge.inv = true ∧ (0x03FF : Word).toNat < edge.memSize.val ∧ edge.memSize.val ≤ (0x0400 : Word).toNat ∧
      (0x03FE : Word).toNat + 1 < edge.memSize.val ∧ edge.memSize.val ≤ (0x03FF : Word).toNat + 1 := by decide

theorem witness_RegisterPorts : (0 : Reg) ≠ 7 := by decide

theorem witness_AutoincrementModes :
    edge.inBounds (edge.reg 1) 2 = false ∧ edge.inBounds (edge.reg 2) 2 = true := by decide

/-- Mode 4, and mode 0. -/
theorem witness_PairMovesRegisterOnce :
    (∃ v t, readOperand (.autodecrement 1) .word .rmwFirst edge = .ok v t) ∧
      (7 : Reg) ≠ (Operand.autodecrement 1).reg ∧ directReg (.autodecrement 1) = none ∧
      ∃ v t, readOperand (.registerDirect 7) .word .rmwFirst edge = .ok v t :=
  ⟨⟨_, _, rfl⟩, by decide, rfl, ⟨_, _, rfl⟩⟩

theorem witness_StandaloneAccessMovesRegisterOnce :
    (∃ v t, readOperand (.autoincrement 2) .word .standalone edge = .ok v t) ∧
      (∃ t, writeOperand (.autoincrement 2) .word 0 .standalone edge = .ok () t) ∧
      directReg (.autoincrement 2) = none ∧ (7 : Reg) ≠ (Operand.autoincrement 2).reg :=
  ⟨⟨_, _, rfl⟩, ⟨_, rfl⟩, rfl, by decide⟩

theorem witness_OperandFaultState :
    operandFits (.registerDeferred 1) .byte edge = true ∧ operandFits (.registerDeferred 1) .word edge = false ∧
      operandFits (.deferredAutodecrement 1) .byte edge = true ∧ operandFits (.deferredIndex 1 0) .byte edge = false := by
  decide

theorem witness_AluWidth : (0 < 1) ∧ (0 < 8) ∧ (0 < 16) := by decide

/-- The word operand at `x[1]` does not fit; the one at `x[2]` does. Its value is zero. -/
theorem witness_MovMeaning :
    let v := operandValue (.registerDeferred 2) .word edge
    let s1 := (moved (.registerDeferred 2) .word edge).setFlags ⟨v.msb, decide (v = 0), false, edge.flags.c⟩
    operandFits (.registerDeferred 1) .word edge = false ∧ operandFits (.registerDeferred 2) .word edge = true ∧
      operandFits (.registerDeferred 1) .word s1 = false ∧ operandFits (.registerDeferred 2) .word s1 = true := by decide

/-- CMP, ADD and SUB have the same hypotheses. -/
theorem witness_CmpAddSubMeaning :
    operandFits (.registerDeferred 1) .word edge = false ∧ operandFits (.registerDeferred 2) .word edge = true ∧
      operandFits (.registerDeferred 1) .word (moved (.registerDeferred 2) .word edge) = false ∧
      operandFits (.registerDeferred 2) .word (moved (.registerDeferred 2) .word edge) = true := by decide

/-- A byte operand at 0x0400 does not fit; one at 0x03FF does. -/
theorem witness_MovbMeaning :
    let b : Byte := (operandValue (.registerDeferred 1) .byte edge).extractLsb' 0 8
    let s1 := (moved (.registerDeferred 1) .byte edge).setFlags ⟨b.msb, decide (b = 0), false, edge.flags.c⟩
    operandFits (.index 1 1) .byte edge = false ∧ operandFits (.registerDeferred 1) .byte edge = true ∧
      directReg (.index 1 1) = none ∧ directReg (.registerDeferred 1) = none ∧
      operandFits (.index 1 1) .byte s1 = false ∧ operandFits (.registerDeferred 1) .byte s1 = true := by decide

theorem witness_ClrMeaning :
    operandFits (.registerDeferred 1) .word (edge.setFlags ⟨false, true, false, false⟩) = false ∧
      operandFits (.registerDeferred 2) .word (edge.setFlags ⟨false, true, false, false⟩) = true := by decide

theorem witness_IncMeaning :
    operandFits (.registerDeferred 1) .word edge = false ∧ operandFits (.registerDeferred 2) .word edge = true := by
  decide

theorem witness_CombMeaning :
    operandFits (.index 1 1) .byte edge = false ∧ operandFits (.registerDeferred 1) .byte edge = true := by decide

theorem witness_RegisterFrame :
    (∃ t, exec (.mov (.autoincrement 2) (.registerDirect 0)) edge = .next t) ∧
      (7 : Reg) ∉ changedRegs (.mov (.autoincrement 2) (.registerDirect 0)) := ⟨⟨_, rfl⟩, by decide⟩

/-- `CLR (R2)` stores to the last two bytes of memory, and to no other. -/
theorem witness_MemoryFrame :
    (∃ t, exec (.clr (.registerDeferred 2)) edge = .next t) ∧ ¬ storesTo (.clr (.registerDeferred 2)) edge 0x03FD ∧
      storesTo (.clr (.registerDeferred 2)) edge 0x03FF ∧ ¬ storesTo (.clr (.registerDeferred 2)) edge 0x0400 :=
  ⟨⟨_, rfl⟩, fun h => absurd h.1 (by decide), ⟨by decide, by decide⟩, fun h => absurd h.2 (by decide)⟩

/-- An instruction that completes, and MOV, MOVB and INC where they fault. -/
theorem witness_FlagAndStatusFrame :
    (∃ t, exec (.inc (.registerDirect 0)) edge = .next t ∧ t.status = .running) ∧
      (∃ t, exec (.mov (.registerDeferred 2) (.registerDeferred 1)) edge = .next t ∧
        t.status = .faulted (.memoryAccessFault 0x03FF)) ∧
      (∃ t, exec (.movb (.index 1 1) (.registerDirect 0)) edge = .next t ∧
        t.status = .faulted (.memoryAccessFault 0x0400)) ∧
      ∃ t, exec (.inc (.registerDeferred 1)) edge = .next t ∧ t.status = .faulted (.memoryAccessFault 0x03FF) :=
  ⟨⟨_, rfl, rfl⟩, ⟨_, rfl, rfl⟩, ⟨_, rfl, rfl⟩, ⟨_, rfl, rfl⟩⟩

theorem witness_FaultLeavesPartialState :
    ∃ t, edge.status = .running ∧ exec (.inc (.registerDeferred 1)) edge = .next t ∧
      t.status = .faulted (.memoryAccessFault 0x03FF) := ⟨_, rfl, rfl, rfl⟩

/-- One instruction for each clause, on the last word or the last byte of memory. -/
theorem witness_FlagConsequences :
    edge.status = .running ∧
      (∃ t, exec (.inc (.registerDeferred 2)) edge = .next t ∧ t.status = .running) ∧
      (∃ t, exec (.clr (.registerDeferred 2)) edge = .next t ∧ t.status = .running) ∧
      (∃ t, exec (.comb (.registerDeferred 1)) edge = .next t ∧ t.status = .running) ∧
      (∃ t, exec (.mov (.registerDirect 7) (.registerDeferred 2)) edge = .next t ∧ t.status = .running) ∧
      (∃ t, exec (.movb (.registerDirect 7) (.registerDeferred 1)) edge = .next t ∧ t.status = .running) ∧
      ∃ t, exec (.cmp (.registerDeferred 2) (.registerDirect 0)) edge = .next t ∧ t.status = .running :=
  ⟨rfl, ⟨_, rfl, rfl⟩, ⟨_, rfl, rfl⟩, ⟨_, rfl, rfl⟩, ⟨_, rfl, rfl⟩, ⟨_, rfl, rfl⟩, ⟨_, rfl, rfl⟩⟩

theorem witness_FlagsInfluenceNothing : ∃ t, step edge = .next t := ⟨_, rfl⟩

theorem witness_HostStepAnswers :
    (takeFault (.decodeFault 0) edge).status = .faulted (.decodeFault 0) ∧ edge.status = .running := by decide

/-- A RUNNING machine and a FAULTED one. -/
theorem witness_HostAccessors :
    edge.inv = true ∧ (takeFault (.decodeFault 0) edge).inv = true ∧ 7 < 8 ∧ 8 ≤ 8 ∧ 0x03FF < edge.memSize.val ∧ edge.memSize.val ≤ 0x0400 := by decide

end Sys2Proof.Tests
end

section
/-! The two primitive reads and the word write of 20_memory.md: where each answers and where it faults (R53,
R55 to R59), and what a word write leaves for the reads after it (R62). -/

namespace Sys2Proof.Machine

/-! ## The halves of a word as the spec writes them -/

/-- The low byte, in R62's own spelling. -/
theorem setWidth_and_eq_loByte (v : Word) : (v &&& 0xFF).setWidth 8 = loByte v := by
  have hmask : (0xFF : Word).setWidth 8 = BitVec.allOnes 8 := by decide
  rw [BitVec.setWidth_and, hmask, BitVec.and_allOnes, loByte, BitVec.setWidth_eq_extractLsb' (by decide)]

/-- The high byte, in R62's own spelling. -/
theorem setWidth_shiftRight_eq_hiByte (v : Word) : (v >>> 8).setWidth 8 = hiByte v := by
  refine BitVec.eq_of_toNat_eq ?_
  simp [hiByte]

/-! ## Bounds -/

variable {s : State} {a : Word}

/-- The bounds check is about integers: its sum does not wrap (R53). -/
theorem inBounds_iff {n : Nat} : s.inBounds a n = true ↔ a.toNat + n ≤ s.memSize.val := by
  simp [State.inBounds]

/-- The address of the high byte of a word in bounds does not wrap, since MEM_SIZE is at most 65536. -/
theorem toNat_add_one (h : a.toNat + 1 < s.memSize.val) : (a + 1).toNat = a.toNat + 1 := by
  have hsize : s.memSize.val < 65537 := s.memSize.isLt
  exact BitVec.toNat_add_of_lt (show a.toNat + 1 < 2 ^ 16 by omega)

/-! ## Where the primitives answer and where they fault -/

theorem memReadByte_ok (h : a.toNat < s.memSize.val) :
    memReadByte a s = .ok (s.mem.read a.toNat) s :=
  if_pos (inBounds_iff.2 h)

theorem memReadByte_fault (h : s.memSize.val ≤ a.toNat) :
    memReadByte a s = .error (.memoryAccessFault a) s :=
  if_neg fun hb => absurd (inBounds_iff.1 hb) (by omega)

theorem memReadWord_ok (h : a.toNat + 1 < s.memSize.val) :
    memReadWord a s = .ok (s.mem.readWord a.toNat) s :=
  if_pos (inBounds_iff.2 h)

theorem memReadWord_fault (h : s.memSize.val ≤ a.toNat + 1) :
    memReadWord a s = .error (.memoryAccessFault a) s :=
  if_neg fun hb => absurd (inBounds_iff.1 hb) (by omega)

theorem memWriteWord_ok (v : Word) (h : a.toNat + 1 < s.memSize.val) :
    memWriteWord a v s = .ok () (s.setMem (s.mem.writeWord a.toNat v)) :=
  if_pos (inBounds_iff.2 h)

/-! ## Reads after a word write -/

/-- Replacing memory keeps MEM_SIZE, so an address in bounds before it is in bounds after it. -/
theorem memReadByte_setMem_ok (m : Memory) (h : a.toNat < s.memSize.val) :
    memReadByte a (s.setMem m) = .ok (m.read a.toNat) (s.setMem m) :=
  memReadByte_ok (s := s.setMem m) h

theorem memReadWord_setMem_ok (m : Memory) (h : a.toNat + 1 < s.memSize.val) :
    memReadWord a (s.setMem m) = .ok (m.readWord a.toNat) (s.setMem m) :=
  memReadWord_ok (s := s.setMem m) h

theorem Memory.readWord_writeWord_same {m : Memory} (hm : m.wf = true) (a : Nat) (v : Word) :
    (m.writeWord a v).readWord a = v := by
  rw [Memory.readWord, Memory.read_writeWord_hi hm, Memory.read_writeWord_lo hm, wordOf_halves]

/-- A word read at the address of a word write gives the word written. -/
theorem memReadWord_after_writeWord (v : Word) (hs : s.inv = true) (h : a.toNat + 1 < s.memSize.val) :
    memReadWord a (s.setMem (s.mem.writeWord a.toNat v)) =
      .ok v (s.setMem (s.mem.writeWord a.toNat v)) := by
  obtain ⟨hm, -⟩ := (inv_iff s).1 hs
  rw [memReadWord_setMem_ok _ h, Memory.readWord_writeWord_same hm]

/-- The byte at the address of a word write is the low one (R60). -/
theorem memReadByte_after_writeWord_lo (v : Word) (hs : s.inv = true) (h : a.toNat + 1 < s.memSize.val) :
    memReadByte a (s.setMem (s.mem.writeWord a.toNat v)) =
      .ok (loByte v) (s.setMem (s.mem.writeWord a.toNat v)) := by
  obtain ⟨hm, -⟩ := (inv_iff s).1 hs
  rw [memReadByte_setMem_ok _ (Nat.lt_of_succ_lt h), Memory.read_writeWord_lo hm]

/-- The byte one address above a word write is the high one (R60). -/
theorem memReadByte_after_writeWord_hi (v : Word) (hs : s.inv = true) (h : a.toNat + 1 < s.memSize.val) :
    memReadByte (a + 1) (s.setMem (s.mem.writeWord a.toNat v)) =
      .ok (hiByte v) (s.setMem (s.mem.writeWord a.toNat v)) := by
  obtain ⟨hm, -⟩ := (inv_iff s).1 hs
  have ha : (a + 1).toNat = a.toNat + 1 := toNat_add_one h
  rw [memReadByte_setMem_ok _ (ha.trans_lt h), ha, Memory.read_writeWord_hi hm]

/-! ## The obligations of 20_memory.md -/

/-- Settles O20: the write answers, its three reads find the word and its two halves, and the halves are the
low byte and the high byte of R62. -/
theorem wordPackingLaw : Obligations.WordPackingLaw := by
  unfold Obligations.WordPackingLaw
  intro s a v hs h
  rw [setWidth_and_eq_loByte, setWidth_shiftRight_eq_hiByte]
  exact ⟨s.setMem (s.mem.writeWord a.toNat v), memWriteWord_ok v h, memReadWord_after_writeWord v hs h,
    memReadByte_after_writeWord_lo v hs h, memReadByte_after_writeWord_hi v hs h⟩

/-- Settles O22: one lemma for each side of the two bounds checks. -/
theorem readsAreBoundsChecked : Obligations.ReadsAreBoundsChecked := by
  unfold Obligations.ReadsAreBoundsChecked
  exact fun _ _ => ⟨memReadByte_ok, memReadByte_fault, memReadWord_ok, memReadWord_fault⟩

end Sys2Proof.Machine
end

section
/-! The decoder on words put together from their fields (R82, R83, R91), and the source's worked encodings (R98). -/

namespace Sys2Proof

variable (sm sr dm dr : BitVec 3) (x : Word)

/-! ## One word format, one operation -/

theorem decodeWords_add : decodeWords (0b0110#4 ++ sm ++ sr ++ dm ++ dr) x =
    .ok (.add (operandOfFields sm sr x) (operandOfFields dm dr x)) := by
  rw [decodeWords, famField_formatD, srcOperand_formatD, dstOperand_formatD]
  rfl

theorem decodeWords_clr : decodeWords (0b0000#4 ++ 0b101000#6 ++ dm ++ dr) x =
    .ok (.clr (operandOfFields dm dr x)) := by
  rw [decodeWords, famField_formatS, selField_formatS, dstOperand_formatS]
  rfl

theorem decodeWords_comb : decodeWords (0b1000#4 ++ 0b101001#6 ++ dm ++ dr) x =
    .ok (.comb (operandOfFields dm dr x)) := by
  rw [decodeWords, famField_formatS, selField_formatS, dstOperand_formatS]
  rfl

/-! ## The obligation of 30_encoding.md -/

/-- Settles O1: each word is its row of R98's column "bits 15..0" put together, and the law of its format reads
the operands off. -/
theorem sourceWordsDecode : Obligations.SourceWordsDecode := by
  unfold Obligations.SourceWordsDecode
  exact fun x => ⟨decodeWords_add 0b000 0b010 0b000 0b100 x, decodeWords_add 0b010 0b010 0b000 0b100 x,
    decodeWords_clr 0b010 0b101 x, decodeWords_comb 0b000 0b100 x⟩

end Sys2Proof
end

section
/-! The operand resolver mode by mode (40_operand_resolver.md section 2): where each mode finds its location, with
or without a pointer word, and which register change goes before or after the access there. -/

namespace Sys2Proof.Machine

variable {o : Operand} {w : Width} {s : State} {a v : Word} {r : Reg}

/-! ## Finding the location -/

/-- Modes 0, 1, 2, 4 and 6: the location follows from the registers alone. -/
theorem locate_bind_direct {α : Type} (k : Location → Sem α) (h : pointerAddress o s = none) :
    (locate o >>= k) s = k (locationOf o 0 s) s := by
  have hl : locate o s = .ok (locationOf o 0 s) s := by simp [locate_spec, pointerWord, h]
  exact sem_bind_ok hl

/-- Modes 3, 5 and 7: the pointer word is read first, and its fault is the access's. -/
theorem locate_bind_pointer {α : Type} (k : Location → Sem α) (h : pointerAddress o s = some a) :
    (locate o >>= k) s =
      (match memReadWord a s with
        | .ok p t => k (locationOf o p s) t
        | .error f t => .error f t) := by
  rw [locate, bind_assoc, sem_bind_ok (sem_get s), h, bind_assoc, sem_bind]
  cases memReadWord a s <;> rfl

theorem locate_bind_pointer_ok {α : Type} (k : Location → Sem α) (h : pointerAddress o s = some a)
    (hb : s.inBounds a 2 = true) :
    (locate o >>= k) s = k (locationOf o (s.mem.readWord a.toNat) s) s := by
  rw [locate_bind_pointer k h, memReadWord_spec, if_pos hb]

/-- A pointer word out of bounds: the operand does not fit, and the fault is at the pointer's own address (R127). -/
theorem pointer_out_of_bounds (h : pointerAddress o (decremented o w s) = some a) (hb : s.inBounds a 2 = false) :
    operandFits o w s = false ∧ faultAddress o w s = a := by
  have hp : pointerFits o w s = false := by simp [pointerFits, h, hb]
  exact ⟨by simp [operandFits, hp], by simp [faultAddress, hp, h]⟩

/-! ## The register changes around the access -/

theorem sem_postIncrement : postIncrement o w s = .ok () (incremented o w s) := rfl

theorem postIncrement_eq_pure (h : ∀ t, incremented o w t = t) : postIncrement o w = pure () :=
  funext fun t => by rw [sem_postIncrement, h, sem_pure]

theorem readOperand_standalone_eq :
    readOperand o w .standalone s =
      (locate o >>= loadFrom w >>= fun u => postIncrement o w >>= fun _ => pure u) (decremented o w s) := by
  rw [bind_assoc]
  rfl

/-- The first half of a pair leaves out the increment in every mode. -/
theorem readOperand_rmwFirst_eq :
    readOperand o w .rmwFirst s = (locate o >>= loadFrom w) (decremented o w s) := by
  rw [← bind_pure (locate o >>= loadFrom w), bind_assoc]
  rfl

/-- Modes 0, 1, 4, 5, 6 and 7: nothing follows the access, so the phase of a read does not matter. -/
theorem readOperand_of_no_increment (ph : ReadPhase) (h : ∀ t, incremented o w t = t) :
    readOperand o w ph s = (locate o >>= loadFrom w) (decremented o w s) := by
  cases ph with
  | standalone => simp only [readOperand_standalone_eq, postIncrement_eq_pure h, pure_bind, bind_pure]
  | rmwFirst => exact readOperand_rmwFirst_eq

/-- A standalone write is the decrement, then the second half of a pair. -/
theorem writeOperand_standalone_eq :
    writeOperand o w v .standalone s = writeOperand o w v .rmwSecond (decremented o w s) := rfl

theorem writeOperand_rmwSecond_eq :
    writeOperand o w v .rmwSecond s = (locate o >>= storeTo w v >>= fun _ => postIncrement o w) s := by
  rw [bind_assoc]
  rfl

/-- Modes 0, 1, 2, 3, 6 and 7: nothing precedes the access, so the phase of a write does not matter. -/
theorem writeOperand_of_no_decrement (ph : WritePhase) (h : decremented o w s = s) :
    writeOperand o w v ph s = writeOperand o w v .rmwSecond s := by
  cases ph with
  | standalone => rw [writeOperand_standalone_eq, h]
  | rmwSecond => rfl

/-- Modes 0, 1, 4, 5, 6 and 7: the second half of a pair is the access alone. -/
theorem writeOperand_rmwSecond_of_no_increment (h : ∀ t, incremented o w t = t) :
    writeOperand o w v .rmwSecond s = (locate o >>= storeTo w v) s := by
  rw [writeOperand_rmwSecond_eq, postIncrement_eq_pure h]
  exact congrFun (bind_pure (locate o >>= storeTo w v)) s

/-! ## The three kinds of mode -/

/-- Modes 0, 1, 6 and 7: both accesses are the location's own, in every phase. -/
theorem accesses_of_no_side_effect (v : Word) (rp : ReadPhase) (wp : WritePhase)
    (hd : decremented o w s = s) (hi : ∀ t, incremented o w t = t) :
    readOperand o w rp s = (locate o >>= loadFrom w) s ∧
      writeOperand o w v wp s = (locate o >>= storeTo w v) s := by
  rw [readOperand_of_no_increment rp hi, hd, writeOperand_of_no_decrement wp hd,
    writeOperand_rmwSecond_of_no_increment hi]
  exact ⟨rfl, rfl⟩

/-- Modes 0, 1 and 6: the location needs no pointer word either. -/
theorem accesses_of_no_pointer (v : Word) (rp : ReadPhase) (wp : WritePhase)
    (hd : decremented o w s = s) (hi : ∀ t, incremented o w t = t) (hp : pointerAddress o s = none) :
    readOperand o w rp s = loadFrom w (locationOf o 0 s) s ∧
      writeOperand o w v wp s = storeTo w v (locationOf o 0 s) s := by
  obtain ⟨hread, hwrite⟩ := accesses_of_no_side_effect v rp wp hd hi
  exact ⟨hread.trans (locate_bind_direct _ hp), hwrite.trans (locate_bind_direct _ hp)⟩

/-- Modes 4 and 5: both read phases and the standalone write run in the state that the decrement leaves, the
second half of a pair in the state as it is. -/
theorem accesses_after_decrement (v : Word) (rp : ReadPhase) (hi : ∀ t, incremented o w t = t) :
    readOperand o w rp s = (locate o >>= loadFrom w) (decremented o w s) ∧
      writeOperand o w v .standalone s = (locate o >>= storeTo w v) (decremented o w s) ∧
      writeOperand o w v .rmwSecond s = (locate o >>= storeTo w v) s :=
  ⟨readOperand_of_no_increment rp hi, writeOperand_rmwSecond_of_no_increment hi,
    writeOperand_rmwSecond_of_no_increment hi⟩

/-- A memory access changes no register, so an increment after it is of the register as it was before it. -/
theorem reg_of_memRead_ok {u : Word} {t : State} (h : memRead w a s = .ok u t) : t.reg r = s.reg r := by
  rw [memRead_spec] at h
  split at h
  · cases h; rfl
  · cases h

theorem reg_of_memWrite_ok {t : State} (h : memWrite w a v s = .ok () t) : t.reg r = s.reg r := by
  rw [memWrite_spec] at h
  split at h
  · cases h; rfl
  · cases h

section Increment

variable {n : Word} (hd : decremented o w s = s) (hi : ∀ t, incremented o w t = t.setReg r (t.reg r + n))
include hd hi

/-- Modes 2 and 3, `a` being the address that the mode accesses: the increment follows an access that answered. -/
theorem readOperand_then_increment (hl : (locate o >>= loadFrom w) s = memRead w a s) :
    readOperand o w .standalone s =
      (match memRead w a s with
        | .ok u t => .ok u (t.setReg r (s.reg r + n))
        | .error f t => .error f t) := by
  rw [readOperand_standalone_eq, hd, sem_bind, hl]
  cases h : memRead w a s with
  | ok u t => simp only [sem_bind, sem_postIncrement, sem_pure, hi, reg_of_memRead_ok h]
  | error f t => rfl

theorem writeOperand_then_increment (ph : WritePhase) (hl : (locate o >>= storeTo w v) s = memWrite w a v s) :
    writeOperand o w v ph s =
      (match memWrite w a v s with
        | .ok _ t => .ok () (t.setReg r (s.reg r + n))
        | .error f t => .error f t) := by
  rw [writeOperand_of_no_decrement ph hd, writeOperand_rmwSecond_eq, sem_bind, hl]
  cases h : memWrite w a v s with
  | ok u t => simp only [sem_postIncrement, hi, reg_of_memWrite_ok h]
  | error f t => rfl

end Increment

/-! ## The obligations of 40_operand_resolver.md -/

/-- Settles O25: with no register change in any phase, each access is the one at the mode's location, which in
mode 7 is found through the pointer word. -/
theorem modesWithoutSideEffect : Obligations.ModesWithoutSideEffect := by
  unfold Obligations.ModesWithoutSideEffect
  intro s r w x v rp wp
  refine ⟨?mode0, ?mode1, ?mode6, ?mode7⟩
  case mode0 => exact accesses_of_no_pointer v rp wp rfl (fun _ => rfl) rfl
  case mode1 => exact accesses_of_no_pointer v rp wp rfl (fun _ => rfl) rfl
  case mode6 => exact accesses_of_no_pointer v rp wp rfl (fun _ => rfl) rfl
  case mode7 =>
    obtain ⟨hread, hwrite⟩ := accesses_of_no_side_effect (o := .deferredIndex r x) v rp wp rfl fun _ => rfl
    exact ⟨hread.trans (locate_bind_pointer _ rfl), hwrite.trans (locate_bind_pointer _ rfl)⟩

/-- Settles O26: in mode 2 the access is at the register, in mode 3 at the pointer word, whose own fault comes
first; the increment follows either way. -/
theorem autoincrementModes : Obligations.AutoincrementModes := by
  unfold Obligations.AutoincrementModes
  intro s r w v wp
  refine ⟨?mode2, ?pointerFaults, ?mode3⟩
  case mode2 =>
    refine ⟨?_, ?_, ?_⟩
    · exact readOperand_then_increment (n := w.step) rfl (fun _ => rfl) (locate_bind_direct _ rfl)
    · exact readOperand_rmwFirst_eq.trans (locate_bind_direct _ rfl)
    · exact writeOperand_then_increment (n := w.step) rfl (fun _ => rfl) wp (locate_bind_direct _ rfl)
  case pointerFaults =>
    intro hb
    obtain ⟨hfit, haddr⟩ :=
      pointer_out_of_bounds (o := .deferredAutoincrement r) (w := w) (a := s.reg r) rfl hb
    rw [← haddr, writeOperand_of_no_decrement wp rfl]
    exact ⟨fun rp => readOperand_fault _ w s rp hfit, writeOperand_rmwSecond_fault _ w s v hfit⟩
  case mode3 =>
    intro hb
    refine ⟨?_, ?_, ?_⟩
    · exact readOperand_then_increment rfl (fun _ => rfl) (locate_bind_pointer_ok _ rfl hb)
    · exact readOperand_rmwFirst_eq.trans (locate_bind_pointer_ok _ rfl hb)
    · exact writeOperand_then_increment rfl (fun _ => rfl) wp (locate_bind_pointer_ok _ rfl hb)

/-- Settles O27: in mode 4 the access is at the register, in mode 5 at the pointer word there, each in the state
that the phase runs in. -/
theorem autodecrementModes : Obligations.AutodecrementModes := by
  unfold Obligations.AutodecrementModes
  intro s r w v rp n s1 s2
  have h1 : s1.reg r = s.reg r - n := reg_setReg_same ..
  have h2 : s2.reg r = s.reg r - 2 := reg_setReg_same ..
  rw [← h1, ← h2]
  refine ⟨?mode4, ?mode5⟩
  case mode4 =>
    obtain ⟨hread, hwrite, hsecond⟩ := accesses_after_decrement (o := .autodecrement r) v rp fun _ => rfl
    exact ⟨hread.trans (locate_bind_direct _ rfl), hwrite.trans (locate_bind_direct _ rfl),
      hsecond.trans (locate_bind_direct _ rfl)⟩
  case mode5 =>
    obtain ⟨hread, hwrite, hsecond⟩ := accesses_after_decrement (o := .deferredAutodecrement r) v rp fun _ => rfl
    exact ⟨hread.trans (locate_bind_pointer _ rfl), hwrite.trans (locate_bind_pointer _ rfl),
      hsecond.trans (locate_bind_pointer _ rfl)⟩

end Sys2Proof.Machine
end

section
/-! The opcode fetch of a step (41_instruction_cycle.md section 1): the word it reads, and a step that faults in
its fetch. -/

namespace Sys2Proof.Machine

variable {s t : State} {f : Fault}

/-- A fault raised before execution ends the step: it is recorded in the state in which it was raised. -/
theorem step_of_fetchDecode_error (hs : s.status = .running) (h : fetchDecode s = .error f t) :
    step s = .next (takeFault f t) := by
  simp only [step, hs, h]

theorem fetchDecode_opcode_out_of_bounds (hb : s.inBounds s.pc 2 = false) :
    fetchDecode s = .error (.memoryAccessFault s.pc) s :=
  (fetchDecode_spec s).trans (if_neg (Bool.eq_false_iff.1 hb))

/-! ## The obligation of 41_instruction_cycle.md -/

/-- Settles O7: in bounds the fetch is the word read at `x[7]`; out of bounds it raises before the advance, so the
step records the fault in the state it began in. -/
theorem opcodeFetch : Obligations.OpcodeFetch := by
  unfold Obligations.OpcodeFetch
  intro s
  refine ⟨?inBounds, ?outOfBounds⟩
  case inBounds => exact fun hb => (memReadWord_spec s s.pc).trans (if_pos hb)
  case outOfBounds =>
    exact fun hs hb => step_of_fetchDecode_error hs (fetchDecode_opcode_out_of_bounds hb)

end Sys2Proof.Machine
end

section
/-! The arithmetic-logic unit (42_alu_and_flags.md): N and Z as a result's sign and zero tests (R161, R162), and ADD's
result and flags (R164). -/

namespace Sys2Proof.Machine

/-! ## The flags that every operation takes from its result -/

variable {W : Nat} (res : BitVec W) (v c : Bool)

/-- N is the sign of the result read as a signed number (R161). -/
theorem flagsOf_n_iff : (flagsOf res v c).n = true ↔ res.toInt < 0 := by
  rw [flagsOf, BitVec.msb_eq_toInt, decide_eq_true_iff]

theorem flagsOf_z_iff : (flagsOf res v c).z = true ↔ res = 0 :=
  decide_eq_true_iff

/-! ## The obligation of 42_alu_and_flags.md -/

/-- Settles O31: the result is the machine sum, N and Z are read off it, and V and C are the two tests that ADD
itself decides. -/
theorem addFlags : Obligations.AddFlags := by
  unfold Obligations.AddFlags
  intro W s d _ o
  refine ⟨?result, ?negative, ?zero, ?overflow, ?carry⟩
  case result => exact BitVec.toNat_add s d
  case negative => exact flagsOf_n_iff ..
  case zero => exact flagsOf_z_iff ..
  case overflow => exact decide_eq_true_iff
  case carry => exact decide_eq_true_iff

end Sys2Proof.Machine
end

section
/-! Read-modify-write of a destination, and ADD (43_double_operand.md R182, R185). -/

namespace Sys2Proof.Machine

/-! ## Read-modify-write -/

/-- The two halves of a read-modify-write pair, with the flag update between them (R111, R172, R185). -/
def readModifyWrite (dst : Operand) (w : Width) (res : Word → Word) (fl : Word → Flags → Flags) : Sem Unit := do
  let d ← readOperand dst w .rmwFirst
  let old ← getFlags
  putFlags (fl d old)
  writeOperand dst w (res d) .rmwSecond

variable {src dst : Operand} {w : Width} {s : State} (res : Word → Word) (fl : Word → Flags → Flags)

/-- The first half raises the pair's fault, before any flag is written. -/
theorem readModifyWrite_fault (h : operandFits dst w s = false) :
    outcomeOf (readModifyWrite dst w res fl) s =
      .next (takeFault (.memoryAccessFault (faultAddress dst w s)) (decremented dst w s)) :=
  outcomeOf_error (sem_bind_error (readOperand_fault dst w s .rmwFirst h))

/-- Once the first half has succeeded the second cannot fault (R126): the pair completes. -/
theorem readModifyWrite_completes (h : operandFits dst w s = true) :
    outcomeOf (readModifyWrite dst w res fl) s =
      .next (stored dst w (res (operandValue dst w s)) (s.setFlags (fl (operandValue dst w s) s.flags))) := by
  obtain ⟨t, ht, ⟨hfault, -⟩ | ⟨-, rfl⟩⟩ := readFlagsWrite (dst := dst) (w := w) res fl s
  · exact absurd hfault (by simp [h])
  · rw [stored_setFlags]
    exact ht

/-! ## ADD -/

/-- ADD reads its source whole, then modifies its destination by ALU addition of the value read. -/
theorem exec_add :
    exec (.add src dst) s = outcomeOf (readOperand src .word .standalone >>= fun v =>
      readModifyWrite dst .word (fun d => (aluAdd v d).res) (fun d _ => (aluAdd v d).flags)) s := rfl

/-- Past its source, ADD is the pair on its destination, run where the source leaves the state. -/
theorem exec_add_of_source_fits (h : operandFits src .word s = true) :
    exec (.add src dst) s = outcomeOf (readModifyWrite dst .word
      (fun d => (aluAdd (operandValue src .word s) d).res)
      (fun d _ => (aluAdd (operandValue src .word s) d).flags)) (moved src .word s) :=
  exec_add.trans (outcomeOf_bind_ok (readOperand_standalone src .word s h))

/-! ## The obligation of 43_double_operand.md -/

/-- Settles O39: the source faults, or ADD is a read-modify-write pair on its destination, which faults in its
first half or completes with the ALU's sum and flags. -/
theorem addMeaning : Obligations.AddMeaning := by
  unfold Obligations.AddMeaning
  refine ⟨decodeWords_add, fun src dst s => ⟨?sourceFaults, fun hsrc => ⟨?destinationFaults, ?completes⟩⟩⟩
  case sourceFaults => exact source_faults
  case destinationFaults =>
    exact fun hdst => (exec_add_of_source_fits hsrc).trans (readModifyWrite_fault _ _ hdst)
  case completes =>
    exact fun hdst => (exec_add_of_source_fits hsrc).trans (readModifyWrite_completes _ _ hdst)

end Sys2Proof.Machine
end

section
/-! The single-operand instructions (44_single_operand.md): CLR as a standalone write with its flags already set
(R190), COMB as a read-modify-write pair on one byte (R192). -/

namespace Sys2Proof.Machine

variable {dst : Operand} {s : State}

/-- CLR is the write of zero alone, run where its flags are already 0 1 0 0. -/
theorem exec_clr :
    exec (.clr dst) s =
      outcomeOf (writeOperand dst .word 0x0000 .standalone) (s.setFlags ⟨false, true, false, false⟩) :=
  outcomeOf_bind_ok (sem_putFlags s _)

/-- COMB is the pair on its byte: the ALU's complement and flags, no old flag consulted. -/
theorem exec_comb :
    exec (.comb dst) s = outcomeOf (readModifyWrite dst .byte (fun d => zeroExtend (aluCom (loByte d)).res)
      (fun d _ => (aluCom (loByte d)).flags)) s := rfl

/-! ## The obligations of 44_single_operand.md -/

/-- Settles O42: the write is CLR's only access, so it faults or completes in the state with the new flags. -/
theorem clrMeaning : Obligations.ClrMeaning := by
  unfold Obligations.ClrMeaning
  refine ⟨decodeWords_clr, fun dst s => ⟨?destinationFaults, ?completes⟩⟩
  case destinationFaults =>
    exact fun hdst => exec_clr.trans (outcomeOf_error (writeOperand_fault dst .word _ 0 hdst))
  case completes =>
    exact fun hdst => exec_clr.trans (outcomeOf_ok (writeOperand_standalone dst .word _ 0 hdst))

/-- Settles O44: the pair faults in its first half, before any flag is written, or completes with the byte
inverted. -/
theorem combMeaning : Obligations.CombMeaning := by
  unfold Obligations.CombMeaning
  refine ⟨decodeWords_comb, fun dst s => ⟨?destinationFaults, ?completes⟩⟩
  case destinationFaults => exact fun hdst => exec_comb.trans (readModifyWrite_fault _ _ hdst)
  case completes => exact fun hdst => exec_comb.trans (readModifyWrite_completes _ _ hdst)

end Sys2Proof.Machine
end

section
/-! Construction (70_reset_and_hazards.md section 1): the machine it gives, field by field, and MEM_SIZE, which
nothing but a construction changes (R250). -/

namespace Sys2Proof.Machine

/-! ## The constructed machine -/

section Construct

variable (n : MemSize)

@[simp] theorem construct_reg (r : Reg) : (State.construct n).reg r = 0x0000 := Vector.getElem_replicate r.isLt
@[simp] theorem construct_flags : (State.construct n).flags = ⟨false, false, false, false⟩ := rfl
@[simp] theorem construct_read (a : Nat) : (State.construct n).mem.read a = 0x00 := rfl
@[simp] theorem construct_status : (State.construct n).status = .running := rfl
@[simp] theorem construct_memSize : (State.construct n).memSize = n := rfl

end Construct

/-! ## A step keeps MEM_SIZE -/

variable {s t : State}

/-- Where it stops at an operand and where it completes. -/
theorem exec_keeps_memSize {i : Instr} (h : exec i s = .next t) : t.memSize = s.memSize := by
  obtain ⟨u, hu, hcases⟩ := exec_cases i s
  obtain rfl : u = t := Host.Outcome.next.inj (hu.symm.trans h)
  obtain ⟨src, -, -, rfl⟩ | ⟨fl, -, -, rfl⟩ | ⟨fl, -, -, hdone⟩ := hcases
  · rw [takeFault_memSize, decremented_memSize]
  · rw [takeFault_memSize, setFlags_memSize, decremented_memSize, afterSource_memSize]
  · obtain ⟨-, -, hsize⟩ := completed_facts hdone
    exact hsize

theorem running_of_step_next (h : step s = .next t) : s.status = .running := by
  cases hs : s.status with
  | running => rfl
  | faulted f => simp [step, hs] at h

theorem step_keeps_memSize (h : step s = .next t) : t.memSize = s.memSize := by
  obtain ⟨f, u, hu, hstep⟩ | ⟨i, -, -, hstep⟩ := step_cases (running_of_step_next h)
  · obtain rfl : takeFault f u = t := Host.Outcome.next.inj (hstep.symm.trans h)
    obtain rfl | rfl := hu <;> rfl
  · exact (exec_keeps_memSize (hstep.symm.trans h)).trans (advanced_memSize s)

/-! ## So does a host transaction -/

variable {o : Operand} {w : Width} {v : Word}

/-- The host's step leaves the step's next state, or no new state where there is none. -/
theorem answerStep_keeps_memSize (s : State) : (answerStep s).2.memSize = s.memSize := by
  cases h : step s with
  | next t =>
    have ht : (answerStep s).2 = t := by
      simp only [answerStep, h]
      split <;> rfl
    rw [ht, step_keeps_memSize h]
  | fault f => simp only [answerStep, h]
  | refused r => simp only [answerStep, h]

/-- A piece that the host runs by itself, given what it leaves where its accesses are in bounds (`fits`) and
where it raises. -/
theorem answer_keeps_memSize {α : Type} {body : Sem α} {reply : α → Response} {fits : Bool} {x : α} {f : Fault}
    {u : State} (h : body s = if fits then .ok x t else .error f u) (ht : t.memSize = s.memSize)
    (hu : u.memSize = s.memSize) : (answer body reply s).2.memSize = s.memSize := by
  rw [answer, h]
  cases fits
  · exact hu
  · exact ht

/-- Everything a read of an operand can do, in either phase. -/
theorem readOperand_spec (ph : ReadPhase) :
    readOperand o w ph s =
      if operandFits o w s then
        .ok (operandValue o w s) (match ph with | .standalone => moved o w s | .rmwFirst => decremented o w s)
      else .error (.memoryAccessFault (faultAddress o w s)) (decremented o w s) := by
  cases h : operandFits o w s with
  | false => exact readOperand_fault o w s ph h
  | true =>
    cases ph with
    | standalone => exact readOperand_standalone o w s h
    | rmwFirst => exact readOperand_rmwFirst o w s h

/-- Everything a standalone write of an operand can do. -/
theorem writeOperand_standalone_spec :
    writeOperand o w v .standalone s =
      if operandFits o w s then .ok () (stored o w v s)
      else .error (.memoryAccessFault (faultAddress o w s)) (decremented o w s) := by
  cases h : operandFits o w s with
  | false => exact writeOperand_fault o w s v h
  | true => exact writeOperand_standalone o w s v h

/-- Everything the second half of a pair can do, run where a decrement left the machine, which is any state
(`exists_decremented`). -/
theorem writeOperand_rmwSecond_spec :
    writeOperand o w v .rmwSecond (decremented o w s) =
      if operandFits o w s then .ok () (stored o w v s)
      else .error (.memoryAccessFault (faultAddress o w s)) (decremented o w s) := by
  cases h : operandFits o w s with
  | false => exact writeOperand_rmwSecond_fault o w s v h
  | true =>
    have hw := writeOperand_rmwSecond o w s s.flags v h
    rw [← decremented_setFlags] at hw
    exact hw

theorem answer_readOperand_keeps_memSize (ph : ReadPhase) (reply : Word → Response) :
    (answer (readOperand o w ph) reply s).2.memSize = s.memSize := by
  refine answer_keeps_memSize (readOperand_spec ph) ?_ (decremented_memSize o w s)
  cases ph with
  | standalone => exact moved_memSize o w s
  | rmwFirst => exact decremented_memSize o w s

theorem answer_writeOperand_keeps_memSize (ph : WritePhase) (reply : Unit → Response) :
    (answer (writeOperand o w v ph) reply s).2.memSize = s.memSize := by
  cases ph with
  | standalone =>
    exact answer_keeps_memSize writeOperand_standalone_spec (stored_memSize o w s v) (decremented_memSize o w s)
  | rmwSecond =>
    obtain ⟨u, rfl⟩ := exists_decremented o w s
    refine answer_keeps_memSize writeOperand_rmwSecond_spec ?_ rfl
    rw [stored_memSize, decremented_memSize]

/-- One case per request: the requests that run a piece of a step by the lemmas above, the raw accessors
because they write at most one register, the flags or memory. -/
theorem transact_keeps_memSize (r : Request) (s : State) (h : ∀ n, r ≠ .construct n) :
    (transact r s).2.memSize = s.memSize := by
  cases r with
  | construct n => exact absurd rfl (h n)
  | step => exact answerStep_keeps_memSize s
  | readByte a => exact answer_keeps_memSize (fits := s.inBounds a 1) rfl rfl rfl
  | readWord a => exact answer_keeps_memSize (fits := s.inBounds a 2) rfl rfl rfl
  | writeByte a v => exact answer_keeps_memSize (fits := s.inBounds a 1) rfl (setMem_memSize ..) rfl
  | writeWord a v => exact answer_keeps_memSize (fits := s.inBounds a 2) rfl (setMem_memSize ..) rfl
  | readOperand o w ph => cases w <;> exact answer_readOperand_keeps_memSize ph _
  | writeOperand o w v ph => exact answer_writeOperand_keeps_memSize ph _
  | getReg i | setReg i v | getMem a | setMem a v =>
    simp only [transact]
    split <;> rfl
  | getPc | setPc v | getFlag f | setFlag f b => rfl

/-! ## The obligation of 70_reset_and_hazards.md -/

/-- Settles O15: the constructed machine field by field; a step and every other transaction keep MEM_SIZE. -/
theorem constructionZeroes : Obligations.ConstructionZeroes := by
  unfold Obligations.ConstructionZeroes
  refine ⟨fun n => ?constructed, fun _ _ => step_keeps_memSize, transact_keeps_memSize⟩
  case constructed =>
    exact ⟨construct_reg n, construct_flags n, construct_read n, construct_status n, construct_memSize n⟩

end Sys2Proof.Machine
end

section
/-! The decoder by the fields of its word (30_encoding.md R82, R83, R88, R91), and the encoder as its inverse on the
well-formed instructions. -/

namespace Sys2Proof

open Machine (srcOf dstOf loByte hiByte wordOf wordOf_halves)

/-! ## One row of the opcode map, one operation -/

section Rows

variable {ir : Word} (x : Word)

theorem decodeWords_of_famField_mov (h : famField ir = 0b0001#4) :
    decodeWords ir x = .ok (.mov (srcOperand ir x) (dstOperand ir x)) := by simp [decodeWords, h]

theorem decodeWords_of_famField_cmp (h : famField ir = 0b0010#4) :
    decodeWords ir x = .ok (.cmp (srcOperand ir x) (dstOperand ir x)) := by simp [decodeWords, h]

theorem decodeWords_of_famField_add (h : famField ir = 0b0110#4) :
    decodeWords ir x = .ok (.add (srcOperand ir x) (dstOperand ir x)) := by simp [decodeWords, h]

theorem decodeWords_of_famField_sub (h : famField ir = 0b1110#4) :
    decodeWords ir x = .ok (.sub (srcOperand ir x) (dstOperand ir x)) := by simp [decodeWords, h]

theorem decodeWords_of_famField_movb (h : famField ir = 0b1001#4) :
    decodeWords ir x = .ok (.movb (srcOperand ir x) (dstOperand ir x)) := by simp [decodeWords, h]

theorem decodeWords_of_selField_clr (hf : famField ir = 0b0000#4) (h : selField ir = 0b101000#6) :
    decodeWords ir x = .ok (.clr (dstOperand ir x)) := by simp [decodeWords, hf, h]

theorem decodeWords_of_selField_inc (hf : famField ir = 0b0000#4) (h : selField ir = 0b101010#6) :
    decodeWords ir x = .ok (.inc (dstOperand ir x)) := by simp [decodeWords, hf, h]

theorem decodeWords_of_selField_comb (hf : famField ir = 0b1000#4) (h : selField ir = 0b101001#6) :
    decodeWords ir x = .ok (.comb (dstOperand ir x)) := by simp [decodeWords, hf, h]

/-- The words that match no row of the opcode map (R92). -/
theorem decodeWords_of_no_row (hd : famField ir ∉ [0b0001, 0b0010, 0b0110, 0b1110, 0b1001])
    (h0 : famField ir = 0b0000 → selField ir ≠ 0b101000 ∧ selField ir ≠ 0b101010)
    (h8 : famField ir = 0b1000 → selField ir ≠ 0b101001) :
    decodeWords ir x = .error (.unimplemented ir) := by
  simp only [List.mem_cons, not_or] at hd
  obtain ⟨h1, h2, h6, hE, h9, -⟩ := hd
  by_cases hf0 : famField ir = 0
  · obtain ⟨hclr, hinc⟩ := h0 hf0
    rw [decodeWords, if_pos hf0, if_neg hclr, if_neg hinc]
  by_cases hf8 : famField ir = 8
  · rw [decodeWords, if_neg hf0, if_pos hf8, if_neg (h8 hf8)]
  · rw [decodeWords, if_neg hf0, if_neg hf8, if_neg h1, if_neg h2, if_neg h6, if_neg h9, if_neg hE]

end Rows

section Formats

variable (sm sr dm dr : BitVec 3) (x : Word)

theorem decodeWords_mov : decodeWords (0b0001#4 ++ sm ++ sr ++ dm ++ dr) x =
    .ok (.mov (operandOfFields sm sr x) (operandOfFields dm dr x)) := by
  rw [decodeWords_of_famField_mov x (famField_formatD ..), srcOperand_formatD, dstOperand_formatD]

theorem decodeWords_cmp : decodeWords (0b0010#4 ++ sm ++ sr ++ dm ++ dr) x =
    .ok (.cmp (operandOfFields sm sr x) (operandOfFields dm dr x)) := by
  rw [decodeWords_of_famField_cmp x (famField_formatD ..), srcOperand_formatD, dstOperand_formatD]

theorem decodeWords_sub : decodeWords (0b1110#4 ++ sm ++ sr ++ dm ++ dr) x =
    .ok (.sub (operandOfFields sm sr x) (operandOfFields dm dr x)) := by
  rw [decodeWords_of_famField_sub x (famField_formatD ..), srcOperand_formatD, dstOperand_formatD]

theorem decodeWords_movb : decodeWords (0b1001#4 ++ sm ++ sr ++ dm ++ dr) x =
    .ok (.movb (operandOfFields sm sr x) (operandOfFields dm dr x)) := by
  rw [decodeWords_of_famField_movb x (famField_formatD ..), srcOperand_formatD, dstOperand_formatD]

theorem decodeWords_inc : decodeWords (0b0000#4 ++ 0b101010#6 ++ dm ++ dr) x =
    .ok (.inc (operandOfFields dm dr x)) := by
  rw [decodeWords_of_selField_inc x (famField_formatS ..) (selField_formatS ..), dstOperand_formatS]

end Formats

/-! ## The opcode map's masks -/

section Masks

variable (ir : Word) (f : BitVec 4) (sel : BitVec 6)

/-- The mask of a two-operand row keeps the family field. -/
theorem and_F000_eq_iff : ir &&& 0xF000 = f ++ 0#12 ↔ famField ir = f := by
  have hmask : ir &&& 0xF000 = famField ir ++ 0#12 := by
    refine BitVec.eq_of_getLsbD_eq fun i hi => ?_
    simp only [famField, BitVec.getLsbD_and, BitVec.getLsbD_append, BitVec.getLsbD_extractLsb']
    interval_cases i <;> simp
  rw [hmask]
  refine ⟨fun h => ?_, fun h => by rw [h]⟩
  exact (BitVec.append_left_inj ..).1 h

/-- The mask of a one-operand row keeps the family field and the selector. -/
theorem and_FFC0_eq_iff : ir &&& 0xFFC0 = f ++ sel ++ 0#6 ↔ famField ir = f ∧ selField ir = sel := by
  have hmask : ir &&& 0xFFC0 = famField ir ++ selField ir ++ 0#6 := by
    refine BitVec.eq_of_getLsbD_eq fun i hi => ?_
    simp only [famField, selField, BitVec.getLsbD_and, BitVec.getLsbD_append, BitVec.getLsbD_extractLsb']
    interval_cases i <;> simp
  rw [hmask]
  refine ⟨fun h => ?_, fun ⟨hf, hs⟩ => by rw [hf, hs]⟩
  have happend : famField ir ++ selField ir = f ++ sel := (BitVec.append_left_inj ..).1 h
  have hf := congrArg (BitVec.extractLsb' 6 4) happend
  have hs := congrArg (BitVec.extractLsb' 0 6) happend
  rw [BitVec.extractLsb'_append_eq_left, BitVec.extractLsb'_append_eq_left] at hf
  rw [BitVec.extractLsb'_append_eq_right, BitVec.extractLsb'_append_eq_right] at hs
  exact ⟨hf, hs⟩

end Masks

/-- Settles O5: each mask keeps the fields that select its row, so each row is the law of its fields, and a word
that meets none of the eight has none of their fields. -/
theorem decodeFollowsOpcodeMap : Obligations.DecodeFollowsOpcodeMap := by
  unfold Obligations.DecodeFollowsOpcodeMap
  intro ir x src dst
  refine ⟨?mov, ?cmp, ?add, ?sub, ?movb, ?clr, ?inc, ?comb, ?noRow⟩
  case mov => exact fun h => decodeWords_of_famField_mov x ((and_F000_eq_iff ir 0b0001).1 h)
  case cmp => exact fun h => decodeWords_of_famField_cmp x ((and_F000_eq_iff ir 0b0010).1 h)
  case add => exact fun h => decodeWords_of_famField_add x ((and_F000_eq_iff ir 0b0110).1 h)
  case sub => exact fun h => decodeWords_of_famField_sub x ((and_F000_eq_iff ir 0b1110).1 h)
  case movb => exact fun h => decodeWords_of_famField_movb x ((and_F000_eq_iff ir 0b1001).1 h)
  case clr =>
    intro h
    obtain ⟨hf, hsel⟩ := (and_FFC0_eq_iff ir 0b0000 0b101000).1 h
    exact decodeWords_of_selField_clr x hf hsel
  case inc =>
    intro h
    obtain ⟨hf, hsel⟩ := (and_FFC0_eq_iff ir 0b0000 0b101010).1 h
    exact decodeWords_of_selField_inc x hf hsel
  case comb =>
    intro h
    obtain ⟨hf, hsel⟩ := (and_FFC0_eq_iff ir 0b1000 0b101001).1 h
    exact decodeWords_of_selField_comb x hf hsel
  case noRow =>
    intro hdouble hsingle
    simp only [List.mem_cons, not_or] at hsingle
    obtain ⟨hclr, hinc, hcomb, -⟩ := hsingle
    refine decodeWords_of_no_row x (fun hmem => hdouble ?_) (fun hf => ⟨fun hsel => ?_, fun hsel => ?_⟩)
      fun hf hsel => ?_
    · rw [(and_F000_eq_iff ir _).2 rfl]
      exact List.mem_map_of_mem (f := fun f : BitVec 4 => (f ++ 0#12 : Word)) hmem
    · exact hclr ((and_FFC0_eq_iff ir _ _).2 ⟨hf, hsel⟩)
    · exact hinc ((and_FFC0_eq_iff ir _ _).2 ⟨hf, hsel⟩)
    · exact hcomb ((and_FFC0_eq_iff ir _ _).2 ⟨hf, hsel⟩)

/-- Settles O2: each word is its fields put together, and the law of its format reads the operands off. -/
theorem exampleWordsDecode : Obligations.ExampleWordsDecode := by
  unfold Obligations.ExampleWordsDecode
  exact fun x => ⟨decodeWords_mov 0 1 0 3 x, decodeWords_cmp 0 0 0 1 x, decodeWords_sub 0 0 0 1 x,
    decodeWords_movb 0 1 1 3 x, decodeWords_inc 0 3 x, decodeWords_add 6 1 7 2 x⟩

/-! ## Decoding what was encoded -/

/-- An operand carries no displacement other than `x`: it is one that decoding with `x` can give (R147). -/
def Operand.accepts (o : Operand) (x : Word) : Prop := o.disp = none ∨ o.disp = some x

section Encode

variable {src dst : Operand} {x : Word} {i : Instr}

/-- The six bits of an operand are its two fields, so a word in bits 15:12, 11:6, 5:0 is one in its five fields. -/
theorem append_operandFields (f : BitVec 4) (sm sr dm dr : BitVec 3) :
    (f ++ (sm ++ sr) ++ (dm ++ dr) : Word) = f ++ sm ++ sr ++ dm ++ dr := by
  refine BitVec.eq_of_getLsbD_eq fun i hi => ?_
  simp only [BitVec.getLsbD_append]
  interval_cases i <;> simp

theorem append_operandField (f : BitVec 4) (sel : BitVec 6) (dm dr : BitVec 3) :
    (f ++ sel ++ (dm ++ dr) : Word) = f ++ sel ++ dm ++ dr := by
  refine BitVec.eq_of_getLsbD_eq fun i hi => ?_
  simp only [BitVec.getLsbD_append]
  interval_cases i <;> simp

theorem encodedD_eq_formatD (f : BitVec 4) (src dst : Operand) :
    (f ++ operandField src ++ operandField dst : Word) =
      f ++ modeField src ++ (BitVec.ofFin src.reg : BitVec 3) ++ modeField dst ++
        (BitVec.ofFin dst.reg : BitVec 3) :=
  append_operandFields ..

theorem encodedS_eq_formatS (f : BitVec 4) (sel : BitVec 6) (dst : Operand) :
    (f ++ sel ++ operandField dst : Word) =
      f ++ sel ++ modeField dst ++ (BitVec.ofFin dst.reg : BitVec 3) :=
  append_operandField ..

/-- An instruction accepts a displacement word when its operands do. -/
def Instr.accepts (i : Instr) (x : Word) : Prop := (∀ src ∈ srcOf i, src.accepts x) ∧ (dstOf i).accepts x

/-- Decoding an opcode word gives back the instruction, with every displacement word that it accepts. -/
theorem decodeWords_opcodeWord (h : i.accepts x) : decodeWords (opcodeWord i) x = .ok i := by
  obtain ⟨hsrc, hdst⟩ := h
  cases i with
  | mov src dst =>
    rw [opcodeWord, encodedD_eq_formatD, decodeWords_mov, operandOfFields_fields src x (hsrc src rfl),
      operandOfFields_fields dst x hdst]
  | cmp src dst =>
    rw [opcodeWord, encodedD_eq_formatD, decodeWords_cmp, operandOfFields_fields src x (hsrc src rfl),
      operandOfFields_fields dst x hdst]
  | add src dst =>
    rw [opcodeWord, encodedD_eq_formatD, decodeWords_add, operandOfFields_fields src x (hsrc src rfl),
      operandOfFields_fields dst x hdst]
  | sub src dst =>
    rw [opcodeWord, encodedD_eq_formatD, decodeWords_sub, operandOfFields_fields src x (hsrc src rfl),
      operandOfFields_fields dst x hdst]
  | movb src dst =>
    rw [opcodeWord, encodedD_eq_formatD, decodeWords_movb, operandOfFields_fields src x (hsrc src rfl),
      operandOfFields_fields dst x hdst]
  | clr dst => rw [opcodeWord, encodedS_eq_formatS, decodeWords_clr, operandOfFields_fields dst x hdst]
  | inc dst => rw [opcodeWord, encodedS_eq_formatS, decodeWords_inc, operandOfFields_fields dst x hdst]
  | comb dst => rw [opcodeWord, encodedS_eq_formatS, decodeWords_comb, operandOfFields_fields dst x hdst]

/-- Operands that share their displacement accept the one word they hold, and any word if they hold none. -/
theorem accepts_of_sharesDisp (h : src.sharesDisp dst = true)
    (hx : src.disp.or dst.disp = none ∨ src.disp.or dst.disp = some x) : src.accepts x ∧ dst.accepts x := by
  simp only [Operand.sharesDisp] at h
  cases hs : src.disp <;> cases hd : dst.disp <;> simp_all [Operand.accepts]

/-- A well-formed instruction accepts its own displacement word, and any word if it has none. -/
theorem accepts_of_wf (h : i.wf = true) (hx : dispWord i = none ∨ dispWord i = some x) : i.accepts x := by
  cases i with
  | clr dst | inc dst | comb dst => exact ⟨nofun, hx⟩
  | mov src dst | cmp src dst | add src dst | sub src dst | movb src dst =>
    obtain ⟨hsrc, hdst⟩ := accepts_of_sharesDisp h hx
    exact ⟨fun o ho => Option.some.inj ho ▸ hsrc, hdst⟩

theorem usesDisp_eq_isSome (i : Instr) : usesDisp i = (dispWord i).isSome := by
  cases i with
  | clr dst | inc dst | comb dst => rfl
  | mov src dst | cmp src dst | add src dst | sub src dst | movb src dst =>
    exact Option.isSome_or.symm

/-- Two bytes suffice where the instruction consults no displacement, and what follows them does not matter. -/
theorem decode_cons_cons {b0 b1 : Byte} (rest : List Byte) (hu : usesDisp i = false)
    (h : ∀ x, decodeWords (wordOf b1 b0) x = .ok i) : decode (b0 :: b1 :: rest) = .ok i := by
  match rest with
  | [] | [_] => simp [decode, h, hu]
  | b2 :: b3 :: _ => exact h (wordOf b3 b2)

end Encode

/-- Settles O3: the opcode word comes back from its two bytes and decodes, with the displacement word from the next
two bytes where the instruction has one, and with any other word where it has none. -/
theorem decodeEncodeRoundTrip : Obligations.DecodeEncodeRoundTrip := by
  unfold Obligations.DecodeEncodeRoundTrip
  intro i rest hwf
  cases hx : dispWord i with
  | none =>
    have hbytes : encodeBytes i ++ rest = loByte (opcodeWord i) :: hiByte (opcodeWord i) :: rest := by
      simp [encodeBytes, encode, bytesOfWord, hx]
    rw [hbytes]
    refine decode_cons_cons rest (by rw [usesDisp_eq_isSome, hx]; rfl) fun x => ?_
    rw [wordOf_halves]
    exact decodeWords_opcodeWord (accepts_of_wf hwf (.inl hx))
  | some x =>
    have hbytes : encodeBytes i ++ rest =
        loByte (opcodeWord i) :: hiByte (opcodeWord i) :: loByte x :: hiByte x :: rest := by
      simp [encodeBytes, encode, bytesOfWord, hx]
    rw [hbytes, decode, wordOf_halves, wordOf_halves]
    exact decodeWords_opcodeWord (accepts_of_wf hwf (.inr hx))

/-! ## Encoding what was decoded -/

section Reencode

variable {src dst : Operand} {ir x : Word} {f : BitVec 4} {sel : BitVec 6}

theorem encodedD_of_famField (x : Word) (h : famField ir = f) :
    f ++ operandField (srcOperand ir x) ++ operandField (dstOperand ir x) = ir := by
  rw [operandField_srcOperand, operandField_dstOperand, append_operandFields, ← h]
  exact (word_eq_formatD ir).symm

theorem encodedS_of_selField (x : Word) (hf : famField ir = f) (hsel : selField ir = sel) :
    f ++ sel ++ operandField (dstOperand ir x) = ir := by
  rw [operandField_dstOperand, append_operandField, ← hf, ← hsel]
  exact (word_eq_formatS ir).symm

/-- An instruction whose operands accept `x` is well-formed, and holds `x` exactly where an operand consults it. -/
theorem wf_and_dispWord_of_accepts {i : Instr} (h : i.accepts x) :
    i.wf = true ∧ dispWord i = if usesDisp i then some x else none := by
  obtain ⟨hsrc, hdst⟩ := h
  cases i with
  | clr dst | inc dst | comb dst =>
    obtain hd | hd : dst.disp = none ∨ dst.disp = some x := hdst
    · simp [Instr.wf, dispWord, usesDisp, hd]
    · simp [Instr.wf, dispWord, usesDisp, hd]
  | mov src dst | cmp src dst | add src dst | sub src dst | movb src dst =>
    obtain hs | hs : src.disp = none ∨ src.disp = some x := hsrc src rfl
    all_goals
      obtain hd | hd : dst.disp = none ∨ dst.disp = some x := hdst
      · simp [Instr.wf, Operand.sharesDisp, dispWord, usesDisp, hs, hd]
      · simp [Instr.wf, Operand.sharesDisp, dispWord, usesDisp, hs, hd]

theorem accepts_of_decoded_operands {i : Instr} (hs : ∀ src ∈ srcOf i, src = srcOperand ir x)
    (hd : dstOf i = dstOperand ir x) : i.accepts x := by
  refine ⟨fun src hmem => ?_, ?_⟩
  · rw [hs src hmem]
    exact disp_operandOfFields ..
  · rw [hd]
    exact disp_operandOfFields ..

/-- Everything decoding can give: the operands are those that the word's fields name, and the opcode word is the
word itself. -/
theorem decodeWords_ok {i : Instr} (h : decodeWords ir x = .ok i) : i.accepts x ∧ opcodeWord i = ir := by
  have hsome : ∀ src ∈ some (srcOperand ir x), src = srcOperand ir x := fun _ hmem => (Option.some.inj hmem).symm
  simp only [decodeWords] at h
  split_ifs at h with hf0 hclr hinc hf8 hcomb hmov hcmp hadd hmovb hsub <;> cases h
  · exact ⟨accepts_of_decoded_operands (ir := ir) nofun rfl, encodedS_of_selField x hf0 hclr⟩
  · exact ⟨accepts_of_decoded_operands (ir := ir) nofun rfl, encodedS_of_selField x hf0 hinc⟩
  · exact ⟨accepts_of_decoded_operands (ir := ir) nofun rfl, encodedS_of_selField x hf8 hcomb⟩
  · exact ⟨accepts_of_decoded_operands hsome rfl, encodedD_of_famField x hmov⟩
  · exact ⟨accepts_of_decoded_operands hsome rfl, encodedD_of_famField x hcmp⟩
  · exact ⟨accepts_of_decoded_operands hsome rfl, encodedD_of_famField x hadd⟩
  · exact ⟨accepts_of_decoded_operands hsome rfl, encodedD_of_famField x hmovb⟩
  · exact ⟨accepts_of_decoded_operands hsome rfl, encodedD_of_famField x hsub⟩

end Reencode

/-- Settles O4: the operands named by the word's fields carry the displacement given or none, so they can stand in
one instruction, and the fields encode back to the word. -/
theorem decodedTermsReencode : Obligations.DecodedTermsReencode := by
  unfold Obligations.DecodedTermsReencode
  intro ir x i h
  obtain ⟨haccepts, hword⟩ := decodeWords_ok h
  obtain ⟨hwf, hdisp⟩ := wf_and_dispWord_of_accepts haccepts
  exact ⟨hwf, hword, hdisp⟩

end Sys2Proof
end

section
/-! The rest of the two-operand instructions (43_double_operand.md R180, R181, R183, R184, R185) and INC (R191): each
faults at its source, faults at its destination, or completes. -/

namespace Sys2Proof.Machine

variable {src dst : Operand} {s : State}

/-! ## MOV, CMP and SUB past their source -/

/-- Past its source, MOV is the write of the value read, run where the flags are already the value's. -/
theorem exec_mov_of_source_fits (h : operandFits src .word s = true) :
    exec (.mov src dst) s =
      outcomeOf (writeOperand dst .word (operandValue src .word s) .standalone)
        ((moved src .word s).setFlags (aluPass (operandValue src .word s) s.flags).flags) := by
  rw [← moved_flags src .word s]
  exact outcomeOf_bind_ok (readOperand_standalone src .word s h)

/-- Past its source, CMP is the read of its destination and the flag update. -/
theorem exec_cmp_of_source_fits (h : operandFits src .word s = true) :
    exec (.cmp src dst) s =
      outcomeOf (readOperand dst .word .standalone >>= fun d =>
        putFlags (aluCmp (operandValue src .word s) d).flags) (moved src .word s) :=
  outcomeOf_bind_ok (readOperand_standalone src .word s h)

/-- Past its source, SUB is the pair on its destination, run where the source leaves the state. -/
theorem exec_sub_of_source_fits (h : operandFits src .word s = true) :
    exec (.sub src dst) s = outcomeOf (readModifyWrite dst .word
      (fun d => (aluSub (operandValue src .word s) d).res)
      (fun d _ => (aluSub (operandValue src .word s) d).flags)) (moved src .word s) :=
  outcomeOf_bind_ok (readOperand_standalone src .word s h)

/-! ## MOVB -/

/-- Past its source, MOVB is its write-back, run where the flags are already the byte's. -/
theorem exec_movb_of_source_fits (h : operandFits src .byte s = true) :
    exec (.movb src dst) s =
      outcomeOf (writeMovb dst (loByte (operandValue src .byte s)))
        ((moved src .byte s).setFlags (aluPass (loByte (operandValue src .byte s)) s.flags).flags) := by
  rw [← moved_flags src .byte s]
  exact outcomeOf_bind_ok (readOperand_standalone src .byte s h)

/-- The write-back of MOVB outside mode 0 is that of every byte operation. -/
theorem writeMovb_of_not_direct (b : Byte) (h : directReg dst = none) :
    writeMovb dst b = writeOperand dst .byte (zeroExtend b) .standalone := by
  cases dst with
  | registerDirect r => cases h
  | _ => rfl

/-! ## INC -/

/-- INC is the pair on its destination, C taken from the old flags. -/
theorem exec_inc :
    exec (.inc dst) s = outcomeOf (readModifyWrite dst .word (fun d => d + 1)
      (fun d old => (aluInc d old).flags)) s := rfl

/-! ## The obligations of 43_double_operand.md and 44_single_operand.md -/

/-- Settles O37: the source faults, or MOV is a write that faults or completes with its flags already set. -/
theorem movMeaning : Obligations.MovMeaning := by
  unfold Obligations.MovMeaning
  refine ⟨decodeWords_mov, fun src dst s => ⟨?sourceFaults, fun hsrc => ⟨?destinationFaults, ?completes⟩⟩⟩
  case sourceFaults => exact source_faults
  case destinationFaults =>
    exact fun hdst => (exec_mov_of_source_fits hsrc).trans (outcomeOf_error (writeOperand_fault dst .word _ _ hdst))
  case completes =>
    exact fun hdst => (exec_mov_of_source_fits hsrc).trans (outcomeOf_ok (writeOperand_standalone dst .word _ _ hdst))

/-- Settles O38: the source faults, or CMP is a read of its destination that faults or is followed by the flag
update alone. -/
theorem cmpMeaning : Obligations.CmpMeaning := by
  unfold Obligations.CmpMeaning
  refine ⟨decodeWords_cmp, fun src dst s => ⟨?sourceFaults, fun hsrc => ⟨?destinationFaults, ?completes⟩⟩⟩
  case sourceFaults => exact source_faults
  case destinationFaults => exact fun hdst => (exec_cmp_of_source_fits hsrc).trans (source_faults hdst)
  case completes =>
    exact fun hdst => (exec_cmp_of_source_fits hsrc).trans (outcomeOf_bind_ok (readOperand_standalone dst .word _ hdst))

/-- Settles O40: the source faults, or SUB is a read-modify-write pair on its destination, which faults in its
first half or completes with the ALU's difference and flags. -/
theorem subMeaning : Obligations.SubMeaning := by
  unfold Obligations.SubMeaning
  refine ⟨decodeWords_sub, fun src dst s => ⟨?sourceFaults, fun hsrc => ⟨?destinationFaults, ?completes⟩⟩⟩
  case sourceFaults => exact source_faults
  case destinationFaults =>
    exact fun hdst => (exec_sub_of_source_fits hsrc).trans (readModifyWrite_fault _ _ hdst)
  case completes =>
    exact fun hdst => (exec_sub_of_source_fits hsrc).trans (readModifyWrite_completes _ _ hdst)

/-- Settles O41: the source faults, or MOVB is its write-back with its flags already set: to a register through the
word port, which makes no access, and elsewhere a byte write that faults or completes. -/
theorem movbMeaning : Obligations.MovbMeaning := by
  unfold Obligations.MovbMeaning
  refine ⟨decodeWords_movb, fun src dst s => ⟨?sourceFaults, fun hsrc => ⟨?toRegister, fun hdirect => ?elsewhere⟩⟩⟩
  case sourceFaults => exact source_faults
  case toRegister =>
    rintro r rfl
    exact (exec_movb_of_source_fits hsrc).trans (outcomeOf_ok rfl)
  case elsewhere =>
    have hexec := exec_movb_of_source_fits (dst := dst) hsrc
    rw [writeMovb_of_not_direct _ hdirect] at hexec
    exact ⟨fun hdst => hexec.trans (outcomeOf_error (writeOperand_fault dst .byte _ _ hdst)),
      fun hdst => hexec.trans (outcomeOf_ok (writeOperand_standalone dst .byte _ _ hdst))⟩

/-- Settles O43: the pair faults in its first half, before any flag is written, or completes with the sum. -/
theorem incMeaning : Obligations.IncMeaning := by
  unfold Obligations.IncMeaning
  refine ⟨decodeWords_inc, fun dst s => ⟨?destinationFaults, ?completes⟩⟩
  case destinationFaults => exact fun hdst => exec_inc.trans (readModifyWrite_fault _ _ hdst)
  case completes => exact fun hdst => exec_inc.trans (readModifyWrite_completes _ _ hdst)

/-! ## The sign-extension law -/

/-- Between registers MOVB makes no access, so it completes. -/
theorem exec_movb_registers (r d : Reg) (s : State) :
    ∃ fl, exec (.movb (.registerDirect r) (.registerDirect d)) s =
      .next ((s.setFlags fl).setReg d (signExtend (loByte (s.reg r)))) := by
  have hexec := exec_movb_of_source_fits (dst := .registerDirect d) (operandFits_direct .byte s r)
  have hbyte : loByte (operandValue (.registerDirect r) .byte s) = loByte (s.reg r) := loByte_zeroExtend _
  rw [hbyte, moved_direct] at hexec
  exact ⟨_, hexec.trans (outcomeOf_ok rfl)⟩

/-- A sign-extended byte as a number: 0xFF00 is added exactly where its sign bit is set (R170). -/
theorem toNat_signExtend_loByte (v : Word) :
    (signExtend (loByte v)).toNat =
      if 0x80 ≤ v.toNat % 256 then 0xFF00 + v.toNat % 256 else v.toNat % 256 := by
  have hlo : (loByte v).toNat = v.toNat % 256 := by simp [loByte]
  have hwide : ((loByte v).setWidth 16).toNat = v.toNat % 256 := by
    rw [BitVec.toNat_setWidth_of_le (by decide), hlo]
  rw [signExtend, BitVec.toNat_signExtend, hwide, BitVec.msb_eq_decide, hlo]
  by_cases h : 0x80 ≤ v.toNat % 256
  · simp [h, Nat.add_comm]
  · simp [h]

/-- Settles O36: MOVB between registers writes the whole destination with the sign-extended byte, whose value is
the law's. -/
theorem movbSignExtends : Obligations.MovbSignExtends := by
  unfold Obligations.MovbSignExtends
  intro r d s b
  obtain ⟨fl, hexec⟩ := exec_movb_registers r d s
  refine ⟨_, hexec, rfl, ?_⟩
  rw [reg_setReg_same]
  exact toNat_signExtend_loByte (s.reg r)

end Sys2Proof.Machine
end

section
/-! The arithmetic-logic unit: CMP, SUB and the one-operand operations (42_alu_and_flags.md R163, R165 to R169), and
what V comes to as signed overflow (section 2). -/

namespace Sys2Proof.Machine

variable {W : Nat} (s d : BitVec W)

/-! ## Results -/

/-- Subtraction of words is subtraction of integers modulo `2^W` (R171). -/
theorem toNat_sub_emod : ((s - d).toNat : Int) = ((s.toNat : Int) - d.toNat) % 2 ^ W := by
  have hd : d.toNat ≤ 2 ^ W := d.isLt.le
  rw [BitVec.toNat_sub, Int.natCast_emod, Nat.cast_add, Nat.cast_sub hd, Nat.cast_pow, Nat.cast_ofNat,
    show (2 ^ W - (d.toNat : Int)) + s.toNat = s.toNat - d.toNat + 2 ^ W by ring, Int.add_emod_right]

/-- Settles O32: the result is the machine difference, Z its zero test, V and C the tests that CMP itself
decides. -/
theorem cmpFlags : Obligations.CmpFlags := by
  unfold Obligations.CmpFlags
  intro W s d _ o
  refine ⟨?result, ?negative, ?zero, ?overflow, ?carry⟩
  case result => exact toNat_sub_emod s d
  case negative => exact flagsOf_n_iff ..
  case zero => exact (flagsOf_z_iff ..).trans sub_eq_zero
  case overflow => exact decide_eq_true_iff
  case carry => exact decide_eq_true_iff

/-- Settles O33: as for CMP, with the operands of the difference exchanged. -/
theorem subFlags : Obligations.SubFlags := by
  unfold Obligations.SubFlags
  intro W s d _ o
  refine ⟨?result, ?negative, ?zero, ?overflow, ?carry⟩
  case result => exact toNat_sub_emod d s
  case negative => exact flagsOf_n_iff ..
  case zero => exact flagsOf_z_iff ..
  case overflow => exact decide_eq_true_iff
  case carry => exact decide_eq_true_iff

/-- All ones is the largest number (R168). -/
theorem eq_allOnes_iff_toNat : d = BitVec.allOnes W ↔ d.toNat = 2 ^ W - 1 := by
  rw [← BitVec.toNat_inj, BitVec.toNat_allOnes]

/-- Settles O35: each flag as its operation writes it; INC is addition of one and COM the complement to all ones. -/
theorem oneOperandFlags : Obligations.OneOperandFlags := by
  unfold Obligations.OneOperandFlags
  intro W d old hW
  refine ⟨⟨rfl, rfl⟩, ⟨rfl, rfl⟩, ⟨?incResult, rfl, rfl, ?incV, rfl⟩, ⟨BitVec.toNat_not, rfl⟩⟩
  case incResult =>
    have hone : (1 : BitVec W).toNat = 1 := by
      exact Nat.mod_eq_of_lt (Nat.one_lt_two_pow hW.ne')
    exact (BitVec.toNat_add d 1).trans (by rw [hone])
  case incV => exact decide_eq_true_iff.trans (eq_allOnes_iff_toNat d)

/-! ## What V comes to -/

/-- Signed overflow of a sum is that the machine sum is not the sum of the signed values. -/
theorem saddOverflow_iff : s.saddOverflow d = true ↔ (s + d).toInt ≠ s.toInt + d.toInt := by
  refine ⟨fun h heq => ?_, fun h => by_contra fun hno => h (BitVec.toInt_add_of_not_saddOverflow hno)⟩
  have hlo := BitVec.le_toInt (s + d)
  have hhi := BitVec.toInt_lt (x := s + d)
  simp only [BitVec.saddOverflow, Bool.or_eq_true, decide_eq_true_eq] at h
  omega

theorem ssubOverflow_iff : s.ssubOverflow d = true ↔ (s - d).toInt ≠ s.toInt - d.toInt := by
  refine ⟨fun h heq => ?_, fun h => by_contra fun hno => h (BitVec.toInt_sub_of_not_ssubOverflow hno)⟩
  have hlo := BitVec.le_toInt (s - d)
  have hhi := BitVec.toInt_lt (x := s - d)
  simp only [BitVec.ssubOverflow, Bool.or_eq_true, decide_eq_true_eq] at h
  omega

/-- The sign tests of ADD say that two operands of one sign have a sum of the other. -/
theorem aluAdd_v_iff : (aluAdd s d).flags.v = true ↔ s.saddOverflow d = true := by
  rw [BitVec.saddOverflow_eq]
  simp only [aluAdd, flagsOf]
  cases s.msb <;> cases d.msb <;> simp

/-- The sign tests of CMP say that the difference of operands of different signs has not the minuend's sign. -/
theorem subtractV_iff_ssubOverflow : subtractV s d (s - d) = true ↔ s.ssubOverflow d = true := by
  rw [BitVec.ssubOverflow_eq]
  simp only [subtractV]
  cases s.msb <;> cases d.msb <;> simp

/-- The same tests on the difference taken the other way say that it has the minuend's sign. -/
theorem subtractV_reverse_iff :
    subtractV s d (d - s) = true ↔ s.msb ≠ d.msb ∧ ¬ d.ssubOverflow s = true := by
  rw [BitVec.ssubOverflow_eq]
  simp only [subtractV]
  cases s.msb <;> cases d.msb <;> simp

/-- Settles O34: each operation's sign tests are the library's overflow tests, which compare the machine result with
the result on signed values. -/
theorem whatVComesTo : Obligations.WhatVComesTo := by
  unfold Obligations.WhatVComesTo
  intro W s d _
  refine ⟨?add, ?cmp, ?sub⟩
  case add => exact (aluAdd_v_iff s d).trans (saddOverflow_iff s d)
  case cmp => exact (subtractV_iff_ssubOverflow s d).trans (ssubOverflow_iff s d)
  case sub =>
    refine (subtractV_reverse_iff s d).trans (and_congr_right fun _ => ?_)
    rw [ssubOverflow_iff, not_not]

end Sys2Proof.Machine
end

section
/-! Byte and word accesses mixed (20_memory.md section 3), and where writes answer and where they fault (R57 to R59). -/

namespace Sys2Proof.Machine

variable {s : State} {a : Word}

/-! ## Writes -/

theorem memWriteByte_ok (v : Byte) (h : a.toNat < s.memSize.val) :
    memWriteByte a v s = .ok () (s.setMem (s.mem.write a.toNat v)) :=
  if_pos (inBounds_iff.2 h)

theorem memWriteByte_fault (v : Byte) (h : s.memSize.val ≤ a.toNat) :
    memWriteByte a v s = .error (.memoryAccessFault a) s :=
  if_neg fun hb => absurd (inBounds_iff.1 hb) (by omega)

theorem memWriteWord_fault (v : Word) (h : s.memSize.val ≤ a.toNat + 1) :
    memWriteWord a v s = .error (.memoryAccessFault a) s :=
  if_neg fun hb => absurd (inBounds_iff.1 hb) (by omega)

/-- Replacing memory keeps MEM_SIZE, so what is in bounds stays in bounds. -/
theorem memWriteByte_setMem_ok (m : Memory) (v : Byte) (h : a.toNat < s.memSize.val) :
    memWriteByte a v (s.setMem m) = .ok () (s.setMem (m.write a.toNat v)) :=
  memWriteByte_ok (s := s.setMem m) v h

theorem memWriteWord_setMem_ok (m : Memory) (v : Word) (h : a.toNat + 1 < s.memSize.val) :
    memWriteWord a v (s.setMem m) = .ok () (s.setMem (m.writeWord a.toNat v)) :=
  memWriteWord_ok (s := s.setMem m) v h

/-! ## What a write leaves at every address -/

section Memory

variable {m : Memory} (hm : m.wf = true)
include hm

theorem Memory.read_write (a b : Nat) (v : Byte) :
    (m.write a v).read b = if b = a then v else m.read b := by
  by_cases h : b = a
  · rw [if_pos h, h, Memory.read_write_same hm]
  · rw [if_neg h, Memory.read_write_ne m v h]

theorem Memory.read_writeWord (a b : Nat) (v : Word) :
    (m.writeWord a v).read b = if b = a then loByte v else if b = a + 1 then hiByte v else m.read b := by
  by_cases h0 : b = a
  · rw [if_pos h0, h0, Memory.read_writeWord_lo hm]
  by_cases h1 : b = a + 1
  · rw [if_neg h0, if_pos h1, h1, Memory.read_writeWord_hi hm]
  · rw [if_neg h0, if_neg h1, Memory.read_writeWord_ne m v h0 h1]

/-- A word read finds the two bytes written at its addresses, the later address on top. -/
theorem Memory.readWord_write_write (a : Nat) (lo hi : Byte) :
    ((m.write a lo).write (a + 1) hi).readWord a = wordOf hi lo := by
  rw [Memory.readWord, Memory.read_write_same (Memory.write_wf hm a lo), Memory.read_write_ne _ _ (by omega),
    Memory.read_write_same hm]

/-- A word write one address up overwrites the high byte of the word below, and only that. -/
theorem Memory.readWord_writeWord_overlap (a : Nat) (v u : Word) :
    ((m.writeWord a v).writeWord (a + 1) u).readWord a = wordOf (loByte u) (loByte v) := by
  rw [Memory.readWord, Memory.read_writeWord_lo (Memory.writeWord_wf hm a v),
    Memory.read_writeWord_ne _ _ (by omega) (by omega), Memory.read_writeWord_lo hm]

end Memory

/-! ## The obligations of 20_memory.md -/

/-- Settles O21: after a word write by the laws of its two bytes; the other two by what the second write leaves at
`a` and `a + 1`. -/
theorem mixedWidthAccesses : Obligations.MixedWidthAccesses := by
  unfold Obligations.MixedWidthAccesses
  intro s a hs h
  obtain ⟨hm, -⟩ := (inv_iff s).1 hs
  have ha : (a + 1).toNat = a.toNat + 1 := toNat_add_one h
  refine ⟨fun v => ?bytesOfWord, fun b0 b1 => ?wordOfBytes, fun v u h2 => ?overlap⟩
  case bytesOfWord =>
    exact ⟨_, memWriteWord_ok v h, memReadByte_after_writeWord_lo v hs h, memReadByte_after_writeWord_hi v hs h⟩
  case wordOfBytes =>
    refine ⟨_, _, memWriteByte_ok b0 (Nat.lt_of_succ_lt h), memWriteByte_setMem_ok _ b1 (ha.trans_lt h), ?_⟩
    rw [memReadWord_setMem_ok _ h, ha, Memory.readWord_write_write hm]
    rfl
  case overlap =>
    refine ⟨_, _, memWriteWord_ok v h, memWriteWord_setMem_ok _ u (by rw [ha]; exact h2), ?_⟩
    rw [memReadWord_setMem_ok _ h, ha, Memory.readWord_writeWord_overlap hm]
    rfl

/-- Settles O23: one lemma for each side of the two bounds checks, and what each write leaves at every address. -/
theorem writesAreBoundsChecked : Obligations.WritesAreBoundsChecked := by
  unfold Obligations.WritesAreBoundsChecked
  intro s a hs
  obtain ⟨hm, -⟩ := (inv_iff s).1 hs
  refine ⟨fun v h => ?byte, memWriteByte_fault, fun v h => ?word, memWriteWord_fault⟩
  case byte => exact ⟨_, memWriteByte_ok v h, fun b => Memory.read_write hm a.toNat b v⟩
  case word => exact ⟨_, memWriteWord_ok v h, fun b => Memory.read_writeWord hm a.toNat b v⟩

end Sys2Proof.Machine
end

section
/-! The register ports (10_state.md section 2), and what an operand does to its register and where it faults
(40_operand_resolver.md sections 3 and 4). -/

namespace Sys2Proof.Machine

/-- Settles O24: each port writes one register, with the word or with the old high byte over the new low one. -/
theorem registerPorts : Obligations.RegisterPorts := by
  unfold Obligations.RegisterPorts
  intro s r v
  refine ⟨reg_setReg_same .., reg_setReg_same .., rfl, fun w q hq => ?_⟩
  obtain ⟨u, hu⟩ := portWrite_eq s r v w
  rw [hu, reg_setReg_ne _ _ _ _ hq]

variable {o : Operand} {w : Width} {s t : State} {q : Reg} {v u : Word}

/-! ## The register change of an operand -/

/-- A mode's side effect is on the operand's own register. -/
theorem reg_of_sideEffectReg (h : sideEffectReg o = some q) : q = o.reg := by
  cases o <;> simp_all [sideEffectReg, Operand.reg]

theorem reg_of_directReg (h : directReg o = some q) : q = o.reg := by
  cases o <;> simp_all [directReg, Operand.reg]

/-- Once per mode: the change before the access and the change after it, of which a mode has at most one. -/
theorem reg_moved_self : (moved o w s).reg o.reg = s.reg o.reg + netChange o w := by
  cases o with
  | autoincrement r | deferredAutoincrement r =>
    exact reg_setReg_same ..
  | autodecrement r | deferredAutodecrement r =>
    rw [netChange, zero_sub, ← sub_eq_add_neg]
    exact reg_setReg_same ..
  | registerDirect r | registerDeferred r | index r x | deferredIndex r x =>
    exact (BitVec.add_zero _).symm

theorem reg_moved_other (h : q ≠ o.reg) : (moved o w s).reg q = s.reg q :=
  reg_moved o w s q fun hside => h (reg_of_sideEffectReg hside)

/-- A write of an operand outside mode 0 makes the same register change as a read. -/
theorem reg_stored_self (h : directReg o = none) :
    (stored o w v s).reg o.reg = s.reg o.reg + netChange o w := by
  cases hloc : operandLocation o w s with
  | register r =>
    rw [operandLocation_register o w s hloc] at h
    cases h
  | memory a => cases w <;> simp [stored, hloc, reg_moved_self]

theorem reg_stored_other (h : q ≠ o.reg) : (stored o w v s).reg q = s.reg q :=
  reg_stored _ _ _ _ _ (fun hside => h (reg_of_sideEffectReg hside)) fun hdirect => h (reg_of_directReg hdirect)

/-! ## What an access that completes has shown -/

theorem readOperand_standalone_ok (h : readOperand o w .standalone s = .ok v t) : t = moved o w s := by
  rw [readOperand_spec] at h
  split at h
  · cases h
    rfl
  · cases h

theorem readOperand_rmwFirst_ok (h : readOperand o w .rmwFirst s = .ok v t) :
    operandFits o w s = true ∧ t = decremented o w s := by
  rw [readOperand_spec] at h
  split at h
  · cases h
    exact ⟨‹_›, rfl⟩
  · cases h

theorem writeOperand_standalone_ok (h : writeOperand o w v .standalone s = .ok () t) :
    t = stored o w v s := by
  rw [writeOperand_standalone_spec] at h
  split at h
  · cases h
    rfl
  · cases h

/-! ## Where an operand that does not fit faults -/

/-- The address reported is out of bounds, for a word if it is a pointer's, for the width if it is the operand's. -/
theorem faultAddress_out_of_bounds (h : operandFits o w s = false) :
    ∃ n, (n = 2 ∨ n = w.bytes) ∧ s.inBounds (faultAddress o w s) n = false := by
  cases hp : pointerFits o w s with
  | false =>
    refine ⟨2, .inl rfl, ?_⟩
    cases ha : pointerAddress o (decremented o w s) with
    | none => simp [pointerFits, ha] at hp
    | some a =>
      have hb : s.inBounds a 2 = false := by simpa [pointerFits, ha] using hp
      obtain ⟨-, haddr⟩ := pointer_out_of_bounds ha hb
      rw [haddr, hb]
  | true =>
    refine ⟨w.bytes, .inr rfl, ?_⟩
    cases hl : operandLocation o w s with
    | register r => simp [operandFits, locationFits, hp, hl] at h
    | memory a => simpa [operandFits, locationFits, faultAddress, hp, hl] using h

/-! ## The obligations of 40_operand_resolver.md -/

/-- Settles O28: the first half has shown that the operand fits, so the second half stores, with the one register
change that the first half began. -/
theorem pairMovesRegisterOnce : Obligations.PairMovesRegisterOnce := by
  unfold Obligations.PairMovesRegisterOnce
  intro o w s s1 v u fl hread
  obtain ⟨hfit, rfl⟩ := readOperand_rmwFirst_ok hread
  exact ⟨_, writeOperand_rmwSecond o w s fl u hfit, fun q hq => reg_stored_other hq, reg_stored_self⟩

/-- Settles O29: a read moves the register, a write stores, and both make the mode's one register change. -/
theorem standaloneAccessMovesRegisterOnce : Obligations.StandaloneAccessMovesRegisterOnce := by
  unfold Obligations.StandaloneAccessMovesRegisterOnce
  refine fun o w s => ⟨fun v t hread => ?read, fun v t hwrite => ?write⟩
  case read =>
    obtain rfl := readOperand_standalone_ok hread
    exact ⟨reg_moved_self, fun q hq => reg_moved_other hq⟩
  case write =>
    obtain rfl := writeOperand_standalone_ok hwrite
    exact ⟨reg_stored_self, fun q hq => reg_stored_other hq⟩

/-- Settles O30: an operand that fits answers in both phases; one that does not raises at the first access out of
bounds, where the state is `decremented`, mode by mode the one stated. -/
theorem operandFaultState : Obligations.OperandFaultState := by
  unfold Obligations.OperandFaultState
  refine fun o w s => ⟨fun hfit rp => ?fits, fun hfit => ?faults⟩
  case fits => exact ⟨_, _, readOperand_spec rp |>.trans (if_pos hfit)⟩
  case faults =>
    intro t
    have ht : t = decremented o w s := by cases o <;> rfl
    rw [ht]
    exact ⟨fun rp => readOperand_fault o w s rp hfit, fun v => writeOperand_fault o w s v hfit,
      faultAddress_out_of_bounds hfit⟩

end Sys2Proof.Machine
end

section
/-! What the eight instructions leave unchanged of registers, memory, flags, status and MEM_SIZE (10_state.md section
2, 20_memory.md section 6, 42_alu_and_flags.md section 3, 60_exceptions.md section 2), each frame read off the three
ways an instruction can end. -/

namespace Sys2Proof.Machine

variable {i : Instr} {s t : State} {fl : Flags} {q : Reg} {a : Nat}

/-- The three ways an instruction ends: its source faults, its destination faults, or it completes. -/
theorem exec_next (h : exec i s = .next t) :
    (∃ src b, srcOf i = some src ∧
        t = takeFault (.memoryAccessFault b) (decremented src (widthOf i) s)) ∨
      (∃ fl b, faultFlags i s.flags fl ∧
        t = takeFault (.memoryAccessFault b)
          ((decremented (dstOf i) (widthOf i) (afterSource i s)).setFlags fl)) ∨
      ∃ fl, flagFacts i s.flags fl ∧ operandFits (dstOf i) (widthOf i) (afterSource i s) = true ∧
        completed i s t fl := by
  obtain ⟨u, hu, hcases⟩ := exec_cases i s
  obtain rfl : u = t := Host.Outcome.next.inj (hu.symm.trans h)
  obtain ⟨src, hsrc, -, ht⟩ | ⟨fl, hfl, -, ht⟩ | hdone := hcases
  · exact .inl ⟨src, _, hsrc, ht⟩
  · exact .inr (.inl ⟨fl, _, hfl, ht⟩)
  · exact .inr (.inr hdone)

/-! ## Registers -/

theorem sideEffectReg_of_not_changed (h : q ∉ changedRegs i) :
    (∀ src ∈ srcOf i, sideEffectReg src ≠ some q) ∧ sideEffectReg (dstOf i) ≠ some q := by
  cases i with
  | clr dst | inc dst | comb dst =>
    refine ⟨nofun, fun hdst => h ?_⟩
    simp [changedRegs, show sideEffectReg dst = some q from hdst]
  | mov src dst | cmp src dst | add src dst | sub src dst | movb src dst =>
    refine ⟨fun o ho hsrc => h ?_, fun hdst => h ?_⟩
    · obtain rfl : src = o := Option.some.inj ho
      simp [changedRegs, hsrc]
    · simp [changedRegs, show sideEffectReg dst = some q from hdst]

theorem reg_afterSource (h : ∀ src ∈ srcOf i, sideEffectReg src ≠ some q) :
    (afterSource i s).reg q = s.reg q := by
  unfold afterSource
  cases hsrc : srcOf i with
  | none => rfl
  | some src => exact reg_moved src _ s q (h src hsrc)

/-- What a completed instruction leaves of a register that neither operand changes. -/
theorem reg_completed (h : completed i s t fl) (hq : q ∉ changedRegs i) : t.reg q = s.reg q := by
  obtain ⟨hsrc, hdst⟩ := sideEffectReg_of_not_changed hq
  rw [← reg_afterSource (s := s) hsrc]
  cases i with
  | cmp src dst =>
    subst h
    exact reg_moved dst .word _ q hdst
  | movb src dst =>
    cases dst with
    | registerDirect r =>
      obtain ⟨v, rfl⟩ := h
      exact reg_setReg_ne _ r q v fun hqr => hq (by simp [changedRegs, directReg, hqr])
    | _ =>
      obtain ⟨v, rfl⟩ := h
      exact reg_stored _ _ _ _ _ hdst nofun
  | mov src dst | add src dst | sub src dst | clr dst | inc dst | comb dst =>
    obtain ⟨v, rfl⟩ := h
    exact reg_stored _ _ _ _ _ hdst fun hdirect => hq (by simp [changedRegs, show directReg dst = some q from hdirect])

/-- Settles O45: a faulting operand has done no more than its decrement, and a completed instruction no more than
the register changes listed. -/
theorem registerFrame : Obligations.RegisterFrame := by
  unfold Obligations.RegisterFrame
  intro i s t q h hq
  obtain ⟨hsrc, hdst⟩ := sideEffectReg_of_not_changed hq
  obtain ⟨src, b, hmem, rfl⟩ | ⟨fl, b, -, rfl⟩ | ⟨fl, -, -, hdone⟩ := exec_next h
  · exact reg_decremented src _ s q (hsrc src hmem)
  · exact (reg_decremented (dstOf i) _ _ q hdst).trans (reg_afterSource hsrc)
  · exact reg_completed hdone hq

/-! ## Memory -/

/-- What a completed instruction leaves of a byte outside its destination. -/
theorem read_completed (h : completed i s t fl) (ha : ¬ storesTo i s a) : t.mem.read a = s.mem.read a := by
  rw [← afterSource_mem i s]
  cases i with
  | cmp src dst =>
    subst h
    exact congrArg (Memory.read · a) (moved_mem dst .word _)
  | movb src dst =>
    cases dst with
    | registerDirect r =>
      obtain ⟨v, rfl⟩ := h
      rfl
    | _ =>
      obtain ⟨v, rfl⟩ := h
      exact read_stored _ _ _ _ ha
  | mov src dst | add src dst | sub src dst | clr dst | inc dst | comb dst =>
    obtain ⟨v, rfl⟩ := h
    exact read_stored _ _ _ _ ha

/-- Settles O46: a faulting operand has stored nothing, and a completed instruction only to its destination. -/
theorem memoryFrame : Obligations.MemoryFrame := by
  unfold Obligations.MemoryFrame
  intro i s t a h ha
  obtain ⟨src, b, -, rfl⟩ | ⟨fl, b, -, rfl⟩ | ⟨fl, -, -, hdone⟩ := exec_next h
  · exact congrArg (Memory.read · a) (decremented_mem ..)
  · exact congrArg (Memory.read · a) ((decremented_mem ..).trans (afterSource_mem i s))
  · exact read_completed hdone ha

/-! ## Flags and status -/

/-- Settles O47: the status and C of the three ways an instruction ends; MOV and MOVB keep C in the flags they write
and INC writes none before it faults. -/
theorem flagAndStatusFrame : Obligations.FlagAndStatusFrame := by
  unfold Obligations.FlagAndStatusFrame
  intro i s t h
  refine ⟨exec_keeps_memSize h, ?_⟩
  obtain ⟨src, b, -, rfl⟩ | ⟨fl, b, hfl, rfl⟩ | ⟨fl, hfl, -, hdone⟩ := exec_next h
  · refine ⟨.inr ⟨b, rfl⟩, ?_⟩
    rw [takeFault_flags, decremented_flags]
    cases i <;> trivial
  · refine ⟨.inr ⟨b, rfl⟩, ?_⟩
    rw [takeFault_flags, setFlags_flags]
    cases i with
    | mov src dst | movb src dst => exact hfl.2.2
    | inc dst => exact congrArg Flags.c hfl
    | _ => trivial
  · obtain ⟨hflags, hstatus, -⟩ := completed_facts hdone
    refine ⟨.inl hstatus, ?_⟩
    rw [hflags]
    cases i with
    | mov src dst | movb src dst | inc dst => exact hfl.2.2
    | _ => trivial

/-- Settles O48: a completed instruction is still RUNNING, so a fault is one of an operand, whose accesses come
before the store and, in a pair or in CMP, before the flag update. -/
theorem faultLeavesPartialState : Obligations.FaultLeavesPartialState := by
  unfold Obligations.FaultLeavesPartialState
  intro i s t f hs h hf
  obtain ⟨src, b, -, rfl⟩ | ⟨fl, b, hfl, rfl⟩ | ⟨fl, -, -, hdone⟩ := exec_next h
  · obtain rfl : Fault.memoryAccessFault b = f := Status.faulted.inj hf
    refine ⟨decremented_mem .., ⟨b, rfl⟩, ?_⟩
    rw [takeFault_flags, decremented_flags]
    cases i <;> trivial
  · obtain rfl : Fault.memoryAccessFault b = f := Status.faulted.inj hf
    refine ⟨(decremented_mem ..).trans (afterSource_mem i s), ⟨b, rfl⟩, ?_⟩
    cases i with
    | mov src dst | movb src dst | clr dst => trivial
    | _ => exact hfl
  · obtain ⟨-, hstatus, -⟩ := completed_facts hdone
    rw [hstatus, hs] at hf
    cases hf

/-- Settles O49: a RUNNING next state is a completed one, whose flags are those written, with the facts that
`exec_cases` says of them. -/
theorem flagConsequences : Obligations.FlagConsequences := by
  unfold Obligations.FlagConsequences
  intro i s t _ h ht
  obtain ⟨src, b, -, rfl⟩ | ⟨fl, b, -, rfl⟩ | ⟨fl, ⟨hnz, hfl⟩, -, hdone⟩ := exec_next h
  · cases ht
  · cases ht
  · obtain ⟨hflags, -, -⟩ := completed_facts hdone
    rw [hflags]
    refine ⟨hnz, ?_⟩
    cases i with
    | inc dst | mov src dst | movb src dst => exact hfl.1
    | clr dst | comb dst => exact hfl
    | _ => trivial

end Sys2Proof.Machine
end

section
/-! The instruction cycle (41_instruction_cycle.md): the step of a RUNNING machine by what its fetch finds, what it
does to `x[7]`, and an instruction placed where it fetches. -/

namespace Sys2Proof.Machine

variable {s t : State} {i : Instr}

/-! ## The step by what the fetch finds -/

theorem step_of_fetchDecode_ok (hs : s.status = .running) (h : fetchDecode s = .ok i t) : step s = exec i t := by
  simp only [step, hs, h]

theorem fetchDecode_displacement_out_of_bounds (h : s.inBounds s.pc 2 = true)
    (h2 : s.inBounds (s.pc + 2) 2 = false) :
    fetchDecode s = .error (.memoryAccessFault (s.pc + 2)) (advanced s) := by
  rw [fetchDecode_spec, if_pos h, if_neg (Bool.eq_false_iff.1 h2)]

theorem fetchFits_iff : fetchFits s = true ↔ s.inBounds s.pc 2 = true ∧ s.inBounds (s.pc + 2) 2 = true := by
  rw [fetchFits, Bool.and_eq_true]

theorem fetchDecode_of_ok (hf : fetchFits s = true) (h : decodeWords (opcodeAt s) (dispAt s) = .ok i) :
    fetchDecode s = .ok i (advanced s) := by
  obtain ⟨h1, h2⟩ := fetchFits_iff.1 hf
  rw [fetchDecode_spec, if_pos h1, if_pos h2, h]

theorem fetchDecode_of_unimplemented {e : DecodeError} (hf : fetchFits s = true)
    (h : decodeWords (opcodeAt s) (dispAt s) = .error e) :
    fetchDecode s = .error (.decodeFault (opcodeAt s)) (advanced s) := by
  obtain ⟨h1, h2⟩ := fetchFits_iff.1 hf
  rw [fetchDecode_spec, if_pos h1, if_pos h2, h]

theorem step_eq_exec (hs : s.status = .running) (hf : fetchFits s = true)
    (h : decodeWords (opcodeAt s) (dispAt s) = .ok i) : step s = exec i (advanced s) :=
  step_of_fetchDecode_ok hs (fetchDecode_of_ok hf h)

theorem step_of_displacement_out_of_bounds (hs : s.status = .running) (h : s.inBounds s.pc 2 = true)
    (h2 : s.inBounds (s.pc + 2) 2 = false) :
    step s = .next (takeFault (.memoryAccessFault (s.pc + 2)) (advanced s)) :=
  step_of_fetchDecode_error hs (fetchDecode_displacement_out_of_bounds h h2)

theorem step_of_unimplemented {e : DecodeError} (hs : s.status = .running) (hf : fetchFits s = true)
    (h : decodeWords (opcodeAt s) (dispAt s) = .error e) :
    step s = .next (takeFault (.decodeFault (opcodeAt s)) (advanced s)) :=
  step_of_fetchDecode_error hs (fetchDecode_of_unimplemented hf h)

theorem step_of_faulted {f : Fault} (h : s.status = .faulted f) : step s = .fault f := by
  simp only [step, h]

/-- A RUNNING machine always has a next state: a faulting fetch gives one, and so does every instruction. -/
theorem exists_step_next (hs : s.status = .running) : ∃ t, step s = .next t := by
  obtain ⟨f, u, -, hstep⟩ | ⟨i, -, -, hstep⟩ := step_cases hs
  · exact ⟨_, hstep⟩
  · obtain ⟨t, ht, -⟩ := exec_cases i (advanced s)
    exact ⟨t, hstep.trans ht⟩

/-- Settles O6: the four bytes are the opcode word and the displacement word, low byte first. -/
theorem stepRunsDecodedInstruction : Obligations.StepRunsDecodedInstruction := by
  unfold Obligations.StepRunsDecodedInstruction
  exact fun s i hs hf h => step_eq_exec hs hf h

/-- Settles O8: the displacement fetch comes before decoding, so the opcode word does not matter. -/
theorem displacementFetchFault : Obligations.DisplacementFetchFault := by
  unfold Obligations.DisplacementFetchFault
  exact fun s hs h h2 => step_of_displacement_out_of_bounds hs h h2

/-- Settles O9: after both fetches the fault is recorded in the advanced state, whose other parts are as before. -/
theorem unimplementedWordFaults : Obligations.UnimplementedWordFaults := by
  unfold Obligations.UnimplementedWordFaults
  intro s e hs h1 he
  refine ⟨fun h2 => ?decodeFault, fun h2 => step_of_displacement_out_of_bounds hs h1 h2⟩
  case decodeFault =>
    exact ⟨_, step_of_unimplemented hs (fetchFits_iff.2 ⟨h1, h2⟩) he, rfl, advanced_pc s,
      fun q hq => reg_advanced s hq, rfl, rfl, rfl⟩

/-- Settles O10: the status is looked at before anything else. -/
theorem faultedMachineTakesNoStep : Obligations.FaultedMachineTakesNoStep := by
  unfold Obligations.FaultedMachineTakesNoStep
  exact fun s f h => step_of_faulted h

/-- Settles O11: there is a next state, a step keeps MEM_SIZE, and a status is one or the other. -/
theorem runningStepAnswersNextState : Obligations.RunningStepAnswersNextState := by
  unfold Obligations.RunningStepAnswersNextState
  intro s hs
  obtain ⟨t, ht⟩ := exists_step_next hs
  refine ⟨t, ht, step_keeps_memSize ht, ?_⟩
  cases t.status with
  | running => exact .inl rfl
  | faulted f => exact .inr ⟨f, rfl⟩

/-! ## What a step does to `x[7]` -/

/-- Settles O12: after the one advance, the instruction's own frame keeps register 7. -/
theorem programCounterAdvancesByTwo : Obligations.ProgramCounterAdvancesByTwo := by
  unfold Obligations.ProgramCounterAdvancesByTwo
  intro s t i hs hf hi hpc h
  have hexec : exec i (advanced s) = .next t := (step_eq_exec hs hf hi).symm.trans h
  exact (registerFrame i _ t Reg.pc hexec hpc).trans (advanced_pc s)

/-- The words of `MOV #n,Rd` (30_encoding.md section 5). -/
theorem decodeWords_mov_literal (d : Reg) (x : Word) :
    decodeWords (0o012700 + BitVec.ofNat 16 d.val) x = .ok (.mov (.autoincrement Reg.pc) (.registerDirect d)) := by
  have hword : ∀ d : Reg, (0o012700 + BitVec.ofNat 16 d.val : Word) =
      0b0001#4 ++ 2#3 ++ 7#3 ++ 0#3 ++ (BitVec.ofFin d : BitVec 3) := by decide
  rw [hword d, decodeWords_mov]
  rfl

/-- MOV from a literal in bounds to a register makes no other access, so it completes. -/
theorem exec_mov_literal (d : Reg) (h : s.inBounds s.pc 2 = true) :
    ∃ fl, exec (.mov (.autoincrement Reg.pc) (.registerDirect d)) s =
      .next (((s.setReg Reg.pc (s.pc + 2)).setReg d (s.mem.readWord s.pc.toNat)).setFlags fl) := by
  have hfit : operandFits (.autoincrement Reg.pc) .word s = true := h
  have hw := writeOperand_standalone (.registerDirect d) .word
    ((moved (.autoincrement Reg.pc) .word s).setFlags
      (aluPass (operandValue (.autoincrement Reg.pc) .word s) s.flags).flags)
    (operandValue (.autoincrement Reg.pc) .word s) rfl
  exact ⟨_, (exec_mov_of_source_fits hfit).trans (outcomeOf_ok hw)⟩

/-- Settles O13: the source is the displacement word of the step, read at the advanced `x[7]` and incremented past. -/
theorem literalSourceIsSkipped : Obligations.LiteralSourceIsSkipped := by
  unfold Obligations.LiteralSourceIsSkipped
  intro s d hs hf hd hword
  obtain ⟨-, h2⟩ := fetchFits_iff.1 hf
  have hstep := step_eq_exec hs hf (by rw [hword]; exact decodeWords_mov_literal d (dispAt s))
  obtain ⟨fl, hexec⟩ := exec_mov_literal (s := advanced s) d (by rw [advanced_pc]; exact h2)
  refine ⟨_, hstep.trans hexec, hs, ?literal, ?pc, fun q hqd hqpc => ?others⟩
  case literal =>
    rw [setFlags_reg, reg_setReg_same, advanced_mem, advanced_pc]
    rfl
  case pc =>
    rw [setFlags_pc, State.pc, reg_setReg_ne _ _ _ _ hd.symm, reg_setReg_same, advanced_pc, BitVec.add_assoc]
    rfl
  case others =>
    rw [setFlags_reg, reg_setReg_ne _ _ _ _ hqd, reg_setReg_ne _ _ _ _ hqpc, reg_advanced s hqpc]

/-! ## An instruction placed -/

/-- A word as the opcode table numbers it, followed by a zero displacement word. -/
theorem tableBytes_word (w : Word) : tableBytes 16 w.toNat = [loByte w, hiByte w, 0, 0] := by
  have hlt : w.toNat < 2 ^ 16 := w.isLt
  have hlo : BitVec.ofNat 8 w.toNat = loByte w := by
    refine BitVec.eq_of_toNat_eq ?_
    simp [loByte]
  have hhi : BitVec.ofNat 8 (w.toNat / 2 ^ 8) = hiByte w := by
    refine BitVec.eq_of_toNat_eq ?_
    simp [hiByte, Nat.shiftRight_eq_div_pow]
  have h2 : w.toNat / 2 ^ 16 = 0 := Nat.div_eq_of_lt hlt
  have h3 : w.toNat / 2 ^ 24 = 0 := Nat.div_eq_of_lt (by omega)
  rw [tableBytes]
  simp only [Nat.mod_eq_of_lt hlt, hlo, hhi, h2, h3]
  rfl

/-- A word write leaves every word alone that shares no byte with it. -/
theorem Memory.readWord_writeWord_disjoint (m : Memory) {a b : Nat} (v : Word) (h : b + 1 < a ∨ a + 1 < b) :
    (m.writeWord a v).readWord b = m.readWord b := by
  rw [Memory.readWord, Memory.read_writeWord_ne _ _ (by omega) (by omega),
    Memory.read_writeWord_ne _ _ (by omega) (by omega), Memory.readWord]

theorem placeWord_of_fits {a : Word} (v : Word) (h : s.inBounds a 2 = true) :
    placeWord s a v = s.setMem (s.mem.writeWord a.toNat v) := if_pos h

/-- With room for both words, the load stores both and does nothing else (log entry 7). -/
theorem withFetchWord_of_fits (w : Word) (h : fetchFits s = true) :
    s.withFetchWord 16 w.toNat =
      s.setMem ((s.mem.writeWord s.pc.toNat w).writeWord (s.pc + 2).toNat 0) := by
  obtain ⟨h1, h2⟩ := fetchFits_iff.1 h
  rw [State.withFetchWord, tableBytes_word, placeInstr, wordOf_halves, placeWord_of_fits w h1,
    placeWord_of_fits _ (by rw [setMem_inBounds]; exact h2)]
  rfl

/-- Settles O14: the two words stored share no byte, so the next step fetches both, and decodes the first with a
displacement word of zero. -/
theorem placedInstructionRuns : Obligations.PlacedInstructionRuns := by
  unfold Obligations.PlacedInstructionRuns
  intro s w i hinv hs hroom hi
  obtain ⟨hm, -⟩ := (inv_iff s).1 hinv
  have hsize : s.memSize.val < 65537 := s.memSize.isLt
  have hpc : (s.pc + 2).toNat = s.pc.toNat + 2 :=
    BitVec.toNat_add_of_lt (show s.pc.toNat + 2 < 2 ^ 16 by omega)
  have hf : fetchFits s = true :=
    fetchFits_iff.2 ⟨inBounds_iff.2 (by omega), inBounds_iff.2 (by omega)⟩
  have hwords := withFetchWord_of_fits w hf
  rw [hpc] at hwords
  rw [hwords]
  set m := (s.mem.writeWord s.pc.toNat w).writeWord (s.pc.toNat + 2) 0 with hm'
  have hopcode : m.readWord s.pc.toNat = w := by
    rw [hm', Memory.readWord_writeWord_disjoint _ _ (by omega), Memory.readWord_writeWord_same hm]
  have hdisp : m.readWord (s.pc.toNat + 2) = 0 := by
    rw [hm', Memory.readWord_writeWord_same (Memory.writeWord_wf hm _ _)]
  refine ⟨m, ?runs, hopcode, hdisp, fun a ha => ?others⟩
  case runs =>
    have hop : opcodeAt (s.setMem m) = w := hopcode
    have hdi : dispAt (s.setMem m) = 0 := (congrArg m.readWord hpc).trans hdisp
    exact step_eq_exec (s := s.setMem m) hs hf (by rw [hop, hdi]; exact hi)
  case others =>
    rw [hm', Memory.read_writeWord_ne _ _ (by omega) (by omega), Memory.read_writeWord_ne _ _ (by omega) (by omega)]

/-! ## The first step after reset -/

section Reset

variable (n : MemSize)

@[simp] theorem construct_pc : (State.construct n).pc = 0x0000 := construct_reg n Reg.pc

theorem advanced_construct : advanced (State.construct n) = (State.construct n).setReg 7 0x0002 := by
  rw [advanced, construct_pc]
  rfl

theorem construct_opcode_fits_iff :
    (State.construct n).inBounds (State.construct n).pc 2 = true ↔ 2 ≤ n.val := by
  rw [construct_pc]
  exact inBounds_iff

theorem construct_displacement_fits_iff :
    (State.construct n).inBounds ((State.construct n).pc + 2) 2 = true ↔ 4 ≤ n.val := by
  rw [construct_pc]
  exact inBounds_iff

theorem construct_readWord (a : Nat) : (State.construct n).mem.readWord a = 0x0000 := by
  rw [Memory.readWord, construct_read, construct_read]
  decide

theorem construct_opcodeAt : opcodeAt (State.construct n) = 0x0000 := construct_readWord n _
theorem construct_dispAt : dispAt (State.construct n) = 0x0000 := construct_readWord n _

theorem decodeWords_zero : decodeWords 0x0000 0x0000 = .error (.unimplemented 0x0000) := by decide

end Reset

/-- Settles O16: the first fetch is at 0x0000 and the second at 0x0002, and both read the zeroes of an empty
memory, which make a word of no row. -/
theorem firstStepAfterReset : Obligations.FirstStepAfterReset := by
  unfold Obligations.FirstStepAfterReset
  intro n s
  have hs : s.status = .running := construct_status n
  have hpc : s.pc = 0x0000 := construct_pc n
  have hopcode : s.inBounds s.pc 2 = true ↔ 2 ≤ n.val := construct_opcode_fits_iff n
  have hdisp : s.inBounds (s.pc + 2) 2 = true ↔ 4 ≤ n.val := construct_displacement_fits_iff n
  rw [← advanced_construct]
  refine ⟨fun hn => ?opcodeFaults, fun hn hn' => ?displacementFaults, fun hn => ?unimplemented⟩
  case opcodeFaults =>
    have hb : s.inBounds s.pc 2 = false := Bool.eq_false_iff.2 (mt hopcode.1 (by omega))
    have hstep := step_of_fetchDecode_error hs (fetchDecode_opcode_out_of_bounds hb)
    rwa [hpc] at hstep
  case displacementFaults =>
    have hb : s.inBounds (s.pc + 2) 2 = false := Bool.eq_false_iff.2 (mt hdisp.1 (by omega))
    have hstep := step_of_displacement_out_of_bounds hs (hopcode.2 hn) hb
    rwa [hpc] at hstep
  case unimplemented =>
    have hf : fetchFits s = true := fetchFits_iff.2 ⟨hopcode.2 (by omega), hdisp.2 hn⟩
    have hword : decodeWords (opcodeAt s) (dispAt s) = .error (.unimplemented 0x0000) := by
      rw [construct_opcodeAt, construct_dispAt, decodeWords_zero]
    have hstep := step_of_unimplemented hs hf hword
    rwa [construct_opcodeAt] at hstep

/-- Settles O17: an empty memory is canonical and lists no address. -/
theorem resetHasInvariant : Obligations.ResetHasInvariant := by
  unfold Obligations.ResetHasInvariant
  exact ⟨rfl, fun _ => rfl⟩

end Sys2Proof.Machine
end

section
/-! The form of a state that every step and every host transaction keeps (20_memory.md sections 1 and 2). -/

namespace Sys2Proof.Machine

variable {i : Instr} {s t : State} {fl : Flags} {o : Operand} {w : Width} {v : Word}

/-! ## A step keeps the form -/

theorem inv_afterSource (h : s.inv = true) : (afterSource i s).inv = true :=
  inv_of_mem h (afterSource_mem i s) (afterSource_memSize i s)

theorem inv_setFlags (h : s.inv = true) : (s.setFlags fl).inv = true := inv_of_mem h rfl rfl

/-- A completed instruction has stored at most to its destination, which fits. -/
theorem inv_completed (hs : s.inv = true) (hfit : operandFits (dstOf i) (widthOf i) (afterSource i s) = true)
    (h : completed i s t fl) : t.inv = true := by
  have hsource : (afterSource i s).inv = true := inv_afterSource hs
  cases i with
  | cmp src dst =>
    subst h
    exact inv_setFlags (inv_of_mem hsource (moved_mem ..) (moved_memSize ..))
  | movb src dst =>
    cases dst with
    | registerDirect r =>
      obtain ⟨v, rfl⟩ := h
      exact inv_of_mem hsource rfl rfl
    | _ =>
      obtain ⟨v, rfl⟩ := h
      exact inv_setFlags (inv_stored hsource hfit)
  | mov src dst | add src dst | sub src dst | clr dst | inc dst | comb dst =>
    obtain ⟨v, rfl⟩ := h
    exact inv_setFlags (inv_stored hsource hfit)

theorem exec_keeps_inv (hs : s.inv = true) (h : exec i s = .next t) : t.inv = true := by
  obtain ⟨src, b, -, rfl⟩ | ⟨fl, b, -, rfl⟩ | ⟨fl, -, hfit, hdone⟩ := exec_next h
  · exact inv_of_mem hs (decremented_mem ..) (decremented_memSize ..)
  · exact inv_of_mem (inv_afterSource (i := i) hs) (decremented_mem ..) (decremented_memSize ..)
  · exact inv_completed hs hfit hdone

theorem step_keeps_inv (hs : s.inv = true) (h : step s = .next t) : t.inv = true := by
  obtain ⟨f, u, hu, hstep⟩ | ⟨i, -, -, hstep⟩ := step_cases (running_of_step_next h)
  · obtain rfl : takeFault f u = t := Host.Outcome.next.inj (hstep.symm.trans h)
    obtain rfl | rfl := hu
    · exact inv_of_mem hs rfl rfl
    · exact inv_of_mem hs rfl rfl
  · exact exec_keeps_inv (inv_of_mem hs (advanced_mem s) (advanced_memSize s)) (hstep.symm.trans h)

/-- Settles O18: a faulting fetch stores nothing, and an instruction stores at most to a destination that fits. -/
theorem stepKeepsInvariant : Obligations.StepKeepsInvariant := by
  unfold Obligations.StepKeepsInvariant
  exact fun s t hs h => ⟨step_keeps_inv hs h, step_keeps_memSize h⟩

/-! ## So does a host transaction -/

/-- A step asked for leaves the machine as it was, or is the machine's own step. -/
theorem answerStep_cases (s : State) : (answerStep s).2 = s ∨ step s = .next (answerStep s).2 := by
  cases h : step s with
  | next t =>
    refine .inr (congrArg Host.Outcome.next ?_)
    simp only [answerStep, h]
    split <;> rfl
  | fault f => exact .inl (by simp only [answerStep, h])
  | refused r => exact .inl (by simp only [answerStep, h])

theorem answerStep_keeps_inv (hs : s.inv = true) : (answerStep s).2.inv = true := by
  obtain h | h := answerStep_cases s
  · rwa [h]
  · exact step_keeps_inv hs h

/-- A piece that the host runs by itself, given what it leaves where its accesses are in bounds (`fits`) and
where it raises. -/
theorem answer_keeps_inv {α : Type} {body : Sem α} {reply : α → Response} {fits : Bool} {x : α} {f : Fault}
    {u : State} (h : body s = if fits then .ok x t else .error f u) (ht : fits = true → t.inv = true)
    (hu : u.inv = true) : (answer body reply s).2.inv = true := by
  rw [answer, h]
  cases fits with
  | false => exact hu
  | true => exact ht rfl

theorem inv_decremented_iff : (decremented o w s).inv = true ↔ s.inv = true :=
  ⟨fun h => inv_of_mem h (decremented_mem ..).symm (decremented_memSize ..).symm,
    fun h => inv_of_mem h (decremented_mem ..) (decremented_memSize ..)⟩

theorem answer_readOperand_keeps_inv (hs : s.inv = true) (ph : ReadPhase) (reply : Word → Response) :
    (answer (readOperand o w ph) reply s).2.inv = true := by
  refine answer_keeps_inv (readOperand_spec ph) (fun _ => ?_) (inv_decremented_iff.2 hs)
  cases ph with
  | standalone => exact inv_of_mem hs (moved_mem ..) (moved_memSize ..)
  | rmwFirst => exact inv_decremented_iff.2 hs

theorem answer_writeOperand_keeps_inv (hs : s.inv = true) (ph : WritePhase) (reply : Unit → Response) :
    (answer (writeOperand o w v ph) reply s).2.inv = true := by
  cases ph with
  | standalone => exact answer_keeps_inv writeOperand_standalone_spec (inv_stored hs) (inv_decremented_iff.2 hs)
  | rmwSecond =>
    obtain ⟨u, rfl⟩ := exists_decremented o w s
    exact answer_keeps_inv writeOperand_rmwSecond_spec (inv_stored (inv_decremented_iff.1 hs)) hs

/-- One case per request: what stores to memory does so in bounds, by its own check or by the host's. -/
theorem transact_keeps_inv (r : Request) (hs : s.inv = true) : (transact r s).2.inv = true := by
  cases r with
  | construct n => rfl
  | step => exact answerStep_keeps_inv hs
  | readByte a => exact answer_keeps_inv (fits := s.inBounds a 1) rfl (fun _ => hs) hs
  | readWord a => exact answer_keeps_inv (fits := s.inBounds a 2) rfl (fun _ => hs) hs
  | writeByte a v =>
    exact answer_keeps_inv (fits := s.inBounds a 1) rfl (fun h => inv_write hs (inBounds_iff.1 h)) hs
  | writeWord a v =>
    exact answer_keeps_inv (fits := s.inBounds a 2) rfl (fun h => inv_writeWord hs (inBounds_iff.1 h)) hs
  | readOperand o w ph => cases w <;> exact answer_readOperand_keeps_inv hs ph _
  | writeOperand o w v ph => exact answer_writeOperand_keeps_inv hs ph _
  | setMem a v =>
    simp only [transact]
    split
    · exact inv_write hs ‹_›
    · exact hs
  | setReg i v =>
    simp only [transact]
    split
    · exact inv_of_mem hs rfl rfl
    · exact hs
  | getReg i | getMem a =>
    simp only [transact]
    split <;> exact hs
  | getPc | getFlag f => exact hs
  | setPc v | setFlag f b => exact inv_of_mem hs rfl rfl

/-- Settles O19: one lemma for the form and one for MEM_SIZE, each over every request. -/
theorem hostKeepsInvariant : Obligations.HostKeepsInvariant := by
  unfold Obligations.HostKeepsInvariant
  exact fun r s hs => ⟨transact_keeps_inv r hs, transact_keeps_memSize r s⟩

end Sys2Proof.Machine
end

section
/-! The host's step transaction and raw accessors (50_interfaces.md). -/

namespace Sys2Proof.Machine

variable {s t : State} {f : Fault}

/-! ## The step transaction -/

theorem answerStep_of_faulted (h : s.status = .faulted f) : answerStep s = (.refused, s) := by
  simp only [answerStep, step_of_faulted h]

theorem answerStep_of_completed (h : step s = .next t) (ht : t.status = .running) : answerStep s = (.done, t) := by
  simp only [answerStep, h, ht]

theorem answerStep_of_fault (h : step s = .next t) (ht : t.status = .faulted f) :
    answerStep s = (.fault f, t) := by
  simp only [answerStep, h, ht]

/-- Settles O51: the answer to a FAULTED machine, and to a RUNNING one by the status of its next state. -/
theorem hostStepAnswers : Obligations.HostStepAnswers := by
  unfold Obligations.HostStepAnswers
  refine fun s => ⟨fun f hf => ?faulted, fun hs => ?running⟩
  case faulted => exact answerStep_of_faulted hf
  case running =>
    obtain ⟨t, ht⟩ := exists_step_next hs
    refine ⟨t, ht, ?_⟩
    cases hstatus : t.status with
    | running => exact .inl ⟨rfl, answerStep_of_completed ht hstatus⟩
    | faulted f => exact .inr ⟨f, rfl, answerStep_of_fault ht hstatus⟩

/-! ## The raw accessors -/

/-- The flags are four separate bits. -/
theorem Flags.get_put (fl : Flags) (f g : FlagName) (b : Bool) :
    (fl.put f b).get g = if g = f then b else fl.get g := by
  cases f <;> cases g <;> rfl

/-- Settles O52: each accessor within its range is a write and a read of one field, and outside it is refused. -/
theorem hostAccessors : Obligations.HostAccessors := by
  unfold Obligations.HostAccessors
  intro s hs
  obtain ⟨hm, -⟩ := (inv_iff s).1 hs
  refine ⟨fun i v hi => ?register, fun i v hi => ?noRegister, fun v => ?pc, fun a v ha => ?byte,
    fun a v ha => ?noByte, fun f g b => ?flag⟩
  case register =>
    refine ⟨_, dif_pos hi, (dif_pos hi).trans ?_⟩
    rw [reg_setReg_same]
  case noRegister => exact ⟨dif_neg (by omega), dif_neg (by omega)⟩
  case pc =>
    refine ⟨s.setReg Reg.pc v, rfl, ?_⟩
    exact congrArg (fun u => (Response.word u, _)) (reg_setReg_same s Reg.pc v)
  case byte =>
    refine ⟨_, if_pos ha, (if_pos ha).trans ?_⟩
    rw [setMem_mem, Memory.read_write_same hm]
  case noByte => exact ⟨if_neg (by omega), if_neg (by omega)⟩
  case flag =>
    refine ⟨_, rfl, ?_⟩
    rw [← Flags.get_put]
    rfl

end Sys2Proof.Machine
end

section
/-! The flags influence nothing (10_state.md section 4): pieces of a step that run alike on two states that differ
only in their flags, up to the flags they leave. -/

namespace Sys2Proof.Machine

/-- What a piece of a step ends with, with the flags of the state it leaves replaced. -/
def withFlags {α : Type} (fl : Flags) : EStateM.Result Fault State α → EStateM.Result Fault State α
  | .ok v t => .ok v (t.setFlags fl)
  | .error f t => .error f (t.setFlags fl)

/-- The second piece, run with other flags, ends as the first does but for the flags left. -/
structure SameButFlags {α : Type} (x y : Sem α) : Prop where
  run : ∀ (s : State) (fl : Flags), ∃ fm, y (s.setFlags fl) = withFlags fm (x s)

section Pieces

variable {α β : Type} {x y : Sem α} (o : Operand) (w : Width) (v : Word)

/-- Pieces in sequence, the second in each pair given the same value. -/
theorem sameButFlags_bind {k l : α → Sem β} (hx : SameButFlags x y) (hk : ∀ u, SameButFlags (k u) (l u)) :
    SameButFlags (x >>= k) (y >>= l) := by
  refine ⟨fun s fl => ?_⟩
  obtain ⟨fm, hy⟩ := hx.run s fl
  cases h : x s with
  | ok u t =>
    rw [h] at hy
    rw [sem_bind_ok h, sem_bind_ok hy]
    exact (hk u).run t fm
  | error f t =>
    rw [h] at hy
    rw [sem_bind_error h, sem_bind_error hy]
    exact ⟨fm, rfl⟩

/-- Reading the flags gives two values: what follows must run alike on them. -/
theorem sameButFlags_getFlags_bind {k l : Flags → Sem β} (hk : ∀ old old', SameButFlags (k old) (l old')) :
    SameButFlags (getFlags >>= k) (getFlags >>= l) :=
  ⟨fun s fl => (hk s.flags fl).run s fl⟩

theorem sameButFlags_putFlags (fl fm : Flags) : SameButFlags (putFlags fl) (putFlags fm) :=
  ⟨fun _ _ => ⟨fm, rfl⟩⟩

theorem sameButFlags_readOperand (ph : ReadPhase) : SameButFlags (readOperand o w ph) (readOperand o w ph) := by
  refine ⟨fun s fl => ⟨fl, ?_⟩⟩
  rw [readOperand_spec, readOperand_spec, operandFits_setFlags]
  split
  · cases ph <;> simp [withFlags]
  · simp [withFlags]

theorem sameButFlags_writeOperand (ph : WritePhase) :
    SameButFlags (writeOperand o w v ph) (writeOperand o w v ph) := by
  refine ⟨fun s fl => ⟨fl, ?_⟩⟩
  cases ph with
  | standalone =>
    rw [writeOperand_standalone_spec, writeOperand_standalone_spec, operandFits_setFlags]
    split <;> simp [withFlags]
  | rmwSecond =>
    obtain ⟨u, rfl⟩ := exists_decremented o w s
    rw [← decremented_setFlags, writeOperand_rmwSecond_spec, writeOperand_rmwSecond_spec, operandFits_setFlags]
    split <;> simp [withFlags]

theorem sameButFlags_writeMovb (b : Byte) : SameButFlags (writeMovb o b) (writeMovb o b) := by
  cases o with
  | registerDirect r => exact ⟨fun _ fl => ⟨fl, rfl⟩⟩
  | _ =>
    rw [writeMovb_of_not_direct _ rfl]
    exact sameButFlags_writeOperand ..

/-- Flags, then a write of what does not depend on them: how every instruction but CMP and MOVB ends. -/
theorem sameButFlags_putFlags_writeOperand (fl fm : Flags) (ph : WritePhase) :
    SameButFlags (putFlags fl >>= fun _ => writeOperand o w v ph) (putFlags fm >>= fun _ => writeOperand o w v ph) :=
  sameButFlags_bind (sameButFlags_putFlags fl fm) fun _ => sameButFlags_writeOperand o w v ph

theorem sameButFlags_fetchDecode : SameButFlags fetchDecode fetchDecode := by
  refine ⟨fun s fl => ⟨fl, ?_⟩⟩
  cases h1 : s.inBounds s.pc 2 with
  | false =>
    rw [fetchDecode_opcode_out_of_bounds h1, fetchDecode_opcode_out_of_bounds (s := s.setFlags fl) h1]
    rfl
  | true =>
    cases h2 : s.inBounds (s.pc + 2) 2 with
    | false =>
      rw [fetchDecode_displacement_out_of_bounds h1 h2,
        fetchDecode_displacement_out_of_bounds (s := s.setFlags fl) h1 h2]
      rfl
    | true =>
      have hf : fetchFits s = true := fetchFits_iff.2 ⟨h1, h2⟩
      cases hd : decodeWords (opcodeAt s) (dispAt s) with
      | ok i =>
        rw [fetchDecode_of_ok hf hd, fetchDecode_of_ok (s := s.setFlags fl) hf hd]
        rfl
      | error e =>
        rw [fetchDecode_of_unimplemented hf hd, fetchDecode_of_unimplemented (s := s.setFlags fl) hf hd]
        rfl

end Pieces

/-! ## Instructions and steps -/

variable {s t : State} (fl : Flags)

theorem outcomeOf_sameButFlags {x y : Sem Unit} (h : outcomeOf x s = .next t) (hxy : SameButFlags x y) :
    ∃ fm, outcomeOf y (s.setFlags fl) = .next (t.setFlags fm) := by
  obtain ⟨fm, hy⟩ := hxy.run s fl
  refine ⟨fm, ?_⟩
  cases hx : x s with
  | ok u t' =>
    rw [hx] at hy
    obtain rfl : t' = t := Host.Outcome.next.inj ((outcomeOf_ok hx).symm.trans h)
    exact outcomeOf_ok hy
  | error f t' =>
    rw [hx] at hy
    obtain rfl : takeFault f t' = t := Host.Outcome.next.inj ((outcomeOf_error hx).symm.trans h)
    exact outcomeOf_error hy

/-- No instruction puts a flag anywhere but into a flag: what is read and stored never depends on the old ones. -/
theorem exec_sameButFlags {i : Instr} (h : exec i s = .next t) :
    ∃ fm, exec i (s.setFlags fl) = .next (t.setFlags fm) := by
  cases i with
  | mov src dst =>
    exact outcomeOf_sameButFlags fl h (sameButFlags_bind (sameButFlags_readOperand src .word .standalone) fun v =>
      sameButFlags_getFlags_bind fun _ _ => sameButFlags_putFlags_writeOperand ..)
  | cmp src dst =>
    exact outcomeOf_sameButFlags fl h (sameButFlags_bind (sameButFlags_readOperand src .word .standalone) fun v =>
      sameButFlags_bind (sameButFlags_readOperand dst .word .standalone) fun d => sameButFlags_putFlags ..)
  | add src dst =>
    exact outcomeOf_sameButFlags fl h (sameButFlags_bind (sameButFlags_readOperand src .word .standalone) fun v =>
      sameButFlags_bind (sameButFlags_readOperand dst .word .rmwFirst) fun d =>
        sameButFlags_putFlags_writeOperand ..)
  | sub src dst =>
    exact outcomeOf_sameButFlags fl h (sameButFlags_bind (sameButFlags_readOperand src .word .standalone) fun v =>
      sameButFlags_bind (sameButFlags_readOperand dst .word .rmwFirst) fun d =>
        sameButFlags_putFlags_writeOperand ..)
  | movb src dst =>
    exact outcomeOf_sameButFlags fl h (sameButFlags_bind (sameButFlags_readOperand src .byte .standalone) fun v =>
      sameButFlags_getFlags_bind fun _ _ =>
        sameButFlags_bind (sameButFlags_putFlags ..) fun _ => sameButFlags_writeMovb dst (loByte v))
  | clr dst => exact outcomeOf_sameButFlags fl h (sameButFlags_putFlags_writeOperand ..)
  | inc dst =>
    exact outcomeOf_sameButFlags fl h (sameButFlags_bind (sameButFlags_readOperand dst .word .rmwFirst) fun d =>
      sameButFlags_getFlags_bind fun _ _ => sameButFlags_putFlags_writeOperand ..)
  | comb dst =>
    exact outcomeOf_sameButFlags fl h (sameButFlags_bind (sameButFlags_readOperand dst .byte .rmwFirst) fun d =>
      sameButFlags_putFlags_writeOperand ..)

theorem step_sameButFlags (h : step s = .next t) : ∃ fm, step (s.setFlags fl) = .next (t.setFlags fm) := by
  have hs : s.status = .running := running_of_step_next h
  obtain ⟨fm, hfetch⟩ := sameButFlags_fetchDecode.run s fl
  cases hf : fetchDecode s with
  | ok i u =>
    rw [hf] at hfetch
    rw [step_of_fetchDecode_ok (s := s.setFlags fl) hs hfetch]
    exact exec_sameButFlags fm ((step_of_fetchDecode_ok hs hf).symm.trans h)
  | error f u =>
    rw [hf] at hfetch
    rw [step_of_fetchDecode_error (s := s.setFlags fl) hs hfetch]
    obtain rfl : takeFault f u = t :=
      Host.Outcome.next.inj ((step_of_fetchDecode_error hs hf).symm.trans h)
    exact ⟨fm, rfl⟩

/-- Settles O50: the fetch runs alike whatever the flags, and so does the instruction it decodes. -/
theorem flagsInfluenceNothing : Obligations.FlagsInfluenceNothing := by
  unfold Obligations.FlagsInfluenceNothing
  exact fun s t fl h => step_sameButFlags fl h

end Sys2Proof.Machine
end
